-- ==== Sys2Proof/Word.lean ====
section
/-! DEFINITION. The fixed-width words of PSOSC (R7, R8, R58): the widths of the parameter table of R7 are the
widths of these types.  Bit 0 is the least significant bit (R8). -/

namespace Sys2Proof

/-- `CMD_W` = 64: one command word, the unit of the command port (R7, R51, R70). -/
abbrev CommandWord := BitVec 64

/-- The 56-bit payload `arg` of a command word (R70). -/
abbrev Payload := BitVec 56

/-- `RATE_W` = 32: a sample rate, unsigned, Hz (R7, R76). -/
abbrev RateWord := BitVec 32

/-- `FREQ_FMT` = UQ32.16: a frequency in units of 1/65536 Hz, unsigned (R7, R77). -/
abbrev FreqWord := BitVec 48

/-- `COUNT_W` = 32: a number of samples, unsigned (R7, R78). -/
abbrev CountWord := BitVec 32

/-- `SEED_W` = 32: a seed and the register `RNG` (R7, R79). -/
abbrev SeedWord := BitVec 32

/-- `SAMPLE_W` = 16: one output sample, the signed integer `s` carried as the word `s mod 65536` (R7, R8). -/
abbrev Sample := BitVec 16

/-- The 32-bit status word (R34). -/
abbrev StatusWord := BitVec 32

/-- One byte of a serialised stream (R55, R56). -/
abbrev Byte := BitVec 8

end Sys2Proof
end

