-- ==== Sys2Proof/Config.lean ====
section
/-! DEFINITION. What an implementation fixes: the two parameters of R7 that the spec leaves OPEN, `NUM` and `RNG_FN`,
as one argument of the model; the plain data by which the model carries the values of `NUM_REAL`; and the free values
of the model.  The other parameters of R7 have values: the widths are the types of Word.lean; `OUT_DEPTH` is unbounded
(`State.out` is a list). -/

namespace Sys2Proof

/-- The number system `NUM` of R11: a carrier with the primitives the datapath rules are stated over, each a total
function of its operands alone.  Every datapath definition of the model takes one as its first argument. -/
structure NumSys (α : Type) where
  /-- the integer `i` -/
  ofInt : Int → α
  /-- the rational `q` -/
  ofRat : Rat → α
  /-- `PI` -/
  pi : α
  /-- `TWO_PI` -/
  twoPi : α
  add : α → α → α
  sub : α → α → α
  mul : α → α → α
  div : α → α → α
  /-- `a < b` -/
  lt : α → α → Bool
  /-- `a >= b` -/
  ge : α → α → Bool
  /-- `a > b` -/
  gt : α → α → Bool
  sin : α → α
  /-- the greatest integer not greater than `a` -/
  floor : α → Int

/-- The OPEN parameters of R7.  The model takes them as an argument (R11, R38, R166): `Machine.stepOf` is the machine
for every value of them, and `Machine.step` is that machine for `Machine.chip`. -/
structure Params (α : Type) where
  /-- `NUM` -/
  num : NumSys α
  /-- `RNG_FN`: the state after a draw, and the draw -/
  rng : SeedWord → SeedWord × Rat

/-- The carrier of the machine's instance of `NUM`, as plain data.  A value stands for one exact real number
(`Machine.toReal` in Machine/RealNum.lean says which).  `poly [c0, c1, c2, …]` is `c0 + c1·π + c2·π² + …`; the
other constructors stand for an operation that has no such form (in a run from reset only the sine of an angle whose
sine is irrational, and what the quantizer computes from it).  DESIGN CHOICE, log entry 2. -/
inductive ExactNum where
  | poly (coeffs : List Rat)
  | add (a b : ExactNum)
  | sub (a b : ExactNum)
  | mul (a b : ExactNum)
  | div (a b : ExactNum)
  | sin (a : ExactNum)
deriving DecidableEq, Repr

/-- FREE VALUE, log entry 3: the floor of a term of a shape that no state of the machine forms and that
Machine/Exact.lean does not decide. -/
opaque Config.freeFloor : ExactNum → Int

/-- FREE VALUE, log entry 3: the sign of such a term. -/
opaque Config.freeSign : ExactNum → Int

end Sys2Proof
end

