-- ==== Sys2Proof/Machine/Num.lean ====
section
/-! DEFINITION. The machine's instance of the number system `NUM` (R11): exact real arithmetic on plain data.
Sums, differences, products, quotients and sines are exact for every operand (Machine/RealNum.lean, Laws/Num.lean).
Comparisons and floors are decided exactly for rationals and for rational multiples of a power of π, and otherwise by
enclosing the value between two dyadic rationals at growing precision; Machine/Exact.lean puts them together
(log entries 2 and 3).  Everything here but the search at the end reduces in the kernel. -/

namespace Sys2Proof.Machine

/-! ### Exact rational operations, written so that they reduce (core `Rat` operations are irreducible) -/

def qAdd (a b : Rat) : Rat := mkRat (a.num * b.den + b.num * a.den) (a.den * b.den)
def qNeg (a : Rat) : Rat := mkRat (-a.num) a.den
def qSub (a b : Rat) : Rat := qAdd a (qNeg b)
def qMul (a b : Rat) : Rat := mkRat (a.num * b.num) (a.den * b.den)
def qInv (a : Rat) : Rat := mkRat (a.num.sign * a.den) a.num.natAbs
def qDiv (a b : Rat) : Rat := qMul a (qInv b)
def qFloor (a : Rat) : Int := a.num / (a.den : Int)
def qIsZero (a : Rat) : Bool := a.num == 0
def qSign (a : Rat) : Int := a.num.sign

/-! ### Polynomials in π with rational coefficients, lowest power first, no zero at the end -/

/-- `c + π·p`, keeping the form. -/
def pCons (c : Rat) (p : List Rat) : List Rat :=
  if p.isEmpty && qIsZero c then [] else c :: p

def pAdd : List Rat → List Rat → List Rat
  | [], q => q
  | p, [] => p
  | a :: p, b :: q => pCons (qAdd a b) (pAdd p q)

def pScale (c : Rat) : List Rat → List Rat
  | [] => []
  | a :: p => pCons (qMul c a) (pScale c p)

def pSub (p q : List Rat) : List Rat := pAdd p (pScale (-1) q)

def pMul : List Rat → List Rat → List Rat
  | [], _ => []
  | a :: p, q => pAdd (pScale a q) (pCons 0 (pMul p q))

/-- `some (c, k)` when the polynomial is `c·πᵏ` with `c ≠ 0`. -/
def pMonomial : List Rat → Option (Rat × Nat)
  | [] => none
  | a :: p =>
    if p.isEmpty then (if qIsZero a then none else some (a, 0))
    else if qIsZero a then
      match pMonomial p with
      | some (c, k) => some (c, k + 1)
      | none => none
    else none

/-- The quotient by `πᵏ`, when the first `k` coefficients are zero. -/
def pShiftDown : Nat → List Rat → Option (List Rat)
  | 0, p => some p
  | _ + 1, [] => some []
  | k + 1, a :: p => if qIsZero a then pShiftDown k p else none

/-- The quotient of two polynomials where it is again one: the divisor is `c·πᵏ` and divides. -/
def pDiv (p q : List Rat) : Option (List Rat) :=
  match pMonomial q with
  | some (c, k) =>
    match pShiftDown k p with
    | some r => some (pScale (qInv c) r)
    | none => none
  | none => none

def numOfRat (q : Rat) : ExactNum := .poly (pCons q [])
def numOfInt (i : Int) : ExactNum := numOfRat (mkRat i 1)
/-- `q·π` -/
def numOfPi (q : Rat) : ExactNum := .poly (pCons 0 (pCons q []))
def numPi : ExactNum := numOfPi 1
def numTwoPi : ExactNum := numOfPi 2

def numAdd : ExactNum → ExactNum → ExactNum
  | .poly p, .poly q => .poly (pAdd p q)
  | a, b => .add a b

def numSub : ExactNum → ExactNum → ExactNum
  | .poly p, .poly q => .poly (pSub p q)
  | a, b => .sub a b

def numMul : ExactNum → ExactNum → ExactNum
  | .poly p, .poly q => .poly (pMul p q)
  | a, b => .mul a b

def numDiv : ExactNum → ExactNum → ExactNum
  | .poly p, .poly q =>
    match pDiv p q with
    | some r => .poly r
    | none => .div (.poly p) (.poly q)
  | a, b => .div a b

/-- The sine of `c·π` where it is rational: `c` is reduced to `[0, 2)`, and the multiples of 1/6 whose sine is 0,
±1/2 or ±1 are looked up. -/
def rationalSine (c : Rat) : Option Rat :=
  let r := qSub c (qMul 2 (mkRat (qFloor (qMul (mkRat 1 2) c)) 1))
  if r = 0 then some 0
  else if r = mkRat 1 6 then some (mkRat 1 2)
  else if r = mkRat 1 2 then some 1
  else if r = mkRat 5 6 then some (mkRat 1 2)
  else if r = 1 then some 0
  else if r = mkRat 7 6 then some (mkRat (-1) 2)
  else if r = mkRat 3 2 then some (-1)
  else if r = mkRat 11 6 then some (mkRat (-1) 2)
  else none

def numSin (a : ExactNum) : ExactNum :=
  match a with
  | .poly [] => numOfRat 0
  | .poly [z, c] =>
    if qIsZero z then
      match rationalSine c with
      | some q => numOfRat q
      | none => .sin a
    else .sin a
  | _ => .sin a

/-! ### Enclosures: a pair `(lo, hi)` at precision `p` says `lo ≤ value · 2^p ≤ hi` -/

/-- `⌊x / 2^p⌋` -/
def downBy (p : Nat) (x : Int) : Int := x / (2 ^ p : Int)
/-- `⌈x / 2^p⌉` -/
def upBy (p : Nat) (x : Int) : Int := -((-x) / (2 ^ p : Int))

def iAdd (x y : Int × Int) : Int × Int := (x.1 + y.1, x.2 + y.2)
def iSub (x y : Int × Int) : Int × Int := (x.1 - y.2, x.2 - y.1)

def iMul (p : Nat) (x y : Int × Int) : Int × Int :=
  let a := x.1 * y.1
  let b := x.1 * y.2
  let c := x.2 * y.1
  let d := x.2 * y.2
  (downBy p (min (min a b) (min c d)), upBy p (max (max a b) (max c d)))

/-- The reciprocal of an enclosure that does not contain 0. -/
def iInv (p : Nat) (y : Int × Int) : Option (Int × Int) :=
  let one : Int := 2 ^ (2 * p)
  if 0 < y.1 then some (one / y.2, -((-one) / y.1))
  else if y.2 < 0 then some ((-one) / (-y.2), -(one / (-y.1)))
  else none

def iRat (p : Nat) (c : Rat) : Int × Int :=
  ((c.num * 2 ^ p) / (c.den : Int), -((-(c.num * 2 ^ p)) / (c.den : Int)))

/-- The first `n` terms of the series of `arctan (1/k)`, each rounded down, at precision `p`. -/
def arctanSum (k p : Nat) : Nat → Int
  | 0 => 0
  | n + 1 =>
    arctanSum k p n
      + (-1) ^ n * (((2 ^ p / ((2 * n + 1) * k ^ (2 * n + 1)) : Nat)) : Int)

/-- π by Machin's formula, `π = 16·arctan(1/5) - 4·arctan(1/239)`. -/
def iPi (p : Nat) : Int × Int :=
  let n := p / 4 + 1
  let s := 16 * arctanSum 5 p n - 4 * arctanSum 239 p n
  let e := 20 * ((n : Int) + 1)
  (s - e, s + e)

/-- The first `n` terms of the sine series at `x / 2^p`, each rounded down, at precision `p`. -/
def sineSum (x : Int) (p : Nat) : Nat → Int
  | 0 => 0
  | n + 1 =>
    sineSum x p n
      + (-1) ^ n * (x ^ (2 * n + 1) / (((2 * n + 1).factorial * 2 ^ (2 * n * p) : Nat) : Int))

/-- The sine of an enclosed angle: the series at the lower end, widened by the width of the enclosure, for angles of
magnitude at most 8; else the whole range `[-1, 1]`. -/
def iSin (p : Nat) (x : Int × Int) : Int × Int :=
  let one : Int := 2 ^ p
  if (x.1.natAbs : Int) ≤ 8 * one then
    let n := p / 4 + 16
    let tail : Int :=
      2 * (x.1.natAbs : Int) ^ (2 * n + 1) / (((2 * n + 1).factorial * 2 ^ (2 * n * p) : Nat) : Int) + 1
    let e := (n : Int) + tail + (x.2 - x.1)
    let s := sineSum x.1 p n
    (max (-one) (s - e), min one (s + e))
  else (-one, one)

/-- Horner's rule on an enclosure of π. -/
def iPoly (p : Nat) : List Rat → Int × Int
  | [] => (0, 0)
  | c :: cs => iAdd (iRat p c) (iMul p (iPi p) (iPoly p cs))

def enclose (p : Nat) : ExactNum → Option (Int × Int)
  | .poly cs => some (iPoly p cs)
  | .add a b =>
    match enclose p a, enclose p b with
    | some x, some y => some (iAdd x y)
    | _, _ => none
  | .sub a b =>
    match enclose p a, enclose p b with
    | some x, some y => some (iSub x y)
    | _, _ => none
  | .mul a b =>
    match enclose p a, enclose p b with
    | some x, some y => some (iMul p x y)
    | _, _ => none
  | .div a b =>
    match enclose p a, enclose p b with
    | some x, some y =>
      match iInv p y with
      | some z => some (iMul p x z)
      | none => none
    | _, _ => none
  | .sin a =>
    match enclose p a with
    | some x => some (iSin p x)
    | none => none

/-- About how many bits the coefficients take: the first precision tried is above this. -/
def bitsOfPoly : List Rat → Nat
  | [] => 0
  | c :: cs => max (c.num.natAbs.log2 + 1) (bitsOfPoly cs) + 2

def bitsOf : ExactNum → Nat
  | .poly cs => bitsOfPoly cs
  | .add a b => bitsOf a + bitsOf b
  | .sub a b => bitsOf a + bitsOf b
  | .mul a b => bitsOf a + bitsOf b
  | .div a b => bitsOf a + bitsOf b
  | .sin a => bitsOf a

/-- The first answer of `f` at `fuel` precisions, each twice the one before. -/
def firstDecided (f : Nat → Option Int) : Nat → Nat → Option Int
  | 0, _ => none
  | fuel + 1, p =>
    match f p with
    | some v => some v
    | none => firstDecided f fuel (2 * p)

def startPrecision (a : ExactNum) : Nat := 64 + bitsOf a

def floorAt (a : ExactNum) (p : Nat) : Option Int :=
  match enclose p a with
  | some x => if downBy p x.1 = downBy p x.2 then some (downBy p x.1) else none
  | none => none

def signAt (a : ExactNum) (p : Nat) : Option Int :=
  match enclose p a with
  | some x => if 0 < x.1 then some 1 else if x.2 < 0 then some (-1) else none
  | none => none

/-- Every coefficient after the first is zero: the value is rational. -/
def pConstant : List Rat → Bool
  | [] => true
  | _ :: p => p.all qIsZero

/-- The floor where it is decided at once: rationals exactly, the rest at four precisions. -/
def decidedFloor (a : ExactNum) : Option Int :=
  match a with
  | .poly p =>
    if pConstant p then some (qFloor (p.headD 0)) else firstDecided (floorAt (.poly p)) 4 (startPrecision (.poly p))
  | _ => firstDecided (floorAt a) 4 (startPrecision a)

/-- The sign (-1, 0 or 1) where it is decided at once. -/
def decidedSign (a : ExactNum) : Option Int :=
  match a with
  | .poly p =>
    if pConstant p then some (qSign (p.headD 0))
    else
      match pMonomial p with
      | some (c, _) => some (qSign c)
      | none => firstDecided (signAt (.poly p)) 4 (startPrecision (.poly p))
  | _ => firstDecided (signAt a) 4 (startPrecision a)

/-! ### Values that some precision decides -/

/-- `u + v·sin(c·π)` with `u`, `v`, `c` rational, `v ≠ 0`, `0 ≤ c < 2` and an irrational sine, as the quantizer forms
it of a Sine sample. -/
def isSineForm : ExactNum → Bool
  | .sin (.poly [z, c]) =>
    qIsZero z && decide (0 ≤ c.num) && decide (c.num < 2 * (c.den : Int)) && (rationalSine c).isNone
  | .add a (.poly p) => isSineForm a && pConstant p
  | .mul a (.poly p) => isSineForm a && pConstant p && !p.all qIsZero
  | _ => false

/-- A value known to be irrational: a polynomial in π that is no constant (π is transcendental), or a sine form
(Niven).  No such value is an integer, and so some precision decides its floor and its sign
(Laws/Converge.lean). -/
def isIrrational (a : ExactNum) : Bool :=
  match a with
  | .poly p => !pConstant p
  | _ => isSineForm a

/-- The first answer of `f` at any precision, given that there is one. -/
def searchDecided (f : Nat → Option Int) (h : ∃ p, (f p).isSome = true) : Int := (f (Nat.find h)).get (Nat.find_spec h)

end Sys2Proof.Machine
end

