-- ==== Sys2Proof/Machine/RealNum.lean ====
section
/-! DEFINITION. The reference instance `NUM_REAL` of R11 over Mathlib's real numbers, and which real number each value
of the machine's instance stands for.  No meaning of the machine computes with this file: it is what statements about
the values of the datapath are stated in (every value the spec states is a value under `NUM_REAL`), and what the proof
that `numFloor` ends is about. -/

namespace Sys2Proof.Machine

open Classical in
/-- `NUM_REAL`: the real numbers, every primitive exact (R11). -/
noncomputable def numReal : NumSys ℝ where
  ofInt i := (i : ℝ)
  ofRat q := (q : ℝ)
  pi := Real.pi
  twoPi := 2 * Real.pi
  add a b := a + b
  sub a b := a - b
  mul a b := a * b
  div a b := a / b
  lt a b := decide (a < b)
  ge a b := decide (a ≥ b)
  gt a b := decide (a > b)
  sin := Real.sin
  floor a := ⌊a⌋

/-- `c0 + c1·π + c2·π² + …` -/
noncomputable def polyReal : List Rat → ℝ
  | [] => 0
  | c :: cs => (c : ℝ) + Real.pi * polyReal cs

/-- The exact real number a value of the machine stands for. -/
noncomputable def toReal : ExactNum → ℝ
  | .poly cs => polyReal cs
  | .add a b => toReal a + toReal b
  | .sub a b => toReal a - toReal b
  | .mul a b => toReal a * toReal b
  | .div a b => toReal a / toReal b
  | .sin a => Real.sin (toReal a)

end Sys2Proof.Machine
end

