-- ==== Sys2Proof/Laws/Num.lean ====
section
/-! SUPPORT. The machine's number operations are exact: one lemma per operation, from the rational operations up to
`toReal`. -/

namespace Sys2Proof.Machine

/-! ### Rational operations -/

@[simp] theorem qAdd_eq (a b : Rat) : qAdd a b = a + b := (Rat.add_def' a b).symm
@[simp] theorem qMul_eq (a b : Rat) : qMul a b = a * b := (Rat.mul_def' a b).symm

@[simp] theorem qNeg_eq (a : Rat) : qNeg a = -a := by
  rw [qNeg, ← Rat.neg_mkRat, Rat.mkRat_self]

@[simp] theorem qSub_eq (a b : Rat) : qSub a b = a - b := by simp [qSub, sub_eq_add_neg]

@[simp] theorem qInv_eq (a : Rat) : qInv a = a⁻¹ := by
  rw [qInv, Rat.inv_def]
  rw [Rat.mkRat_eq_divInt]
  rcases lt_trichotomy a.num 0 with h | h | h
  · have hn : ((a.num.natAbs : Nat) : Int) = -a.num := by omega
    rw [Int.sign_eq_neg_one_of_neg h, hn]
    rw [show (-1 : Int) * a.den = -(a.den : Int) by ring, ← Rat.divInt_neg]
    simp
  · simp [h]
  · have hn : ((a.num.natAbs : Nat) : Int) = a.num := by omega
    rw [Int.sign_eq_one_of_pos h, hn]
    simp

@[simp] theorem qDiv_eq (a b : Rat) : qDiv a b = a / b := by simp [qDiv, div_eq_mul_inv]

@[simp] theorem qIsZero_eq (a : Rat) : qIsZero a = decide (a = 0) := by
  rw [qIsZero, Bool.eq_iff_iff]
  simp [Rat.num_eq_zero]

theorem qFloor_eq (a : Rat) : qFloor a = ⌊a⌋ := (Rat.floor_def a).symm

theorem qFloor_real (a : Rat) : qFloor a = ⌊(a : ℝ)⌋ := by rw [qFloor_eq, Rat.floor_cast]

theorem qSign_eq (a : Rat) : qSign a = a.num.sign := rfl

/-! ### Polynomials in π -/

@[simp] theorem polyReal_nil : polyReal [] = 0 := rfl
@[simp] theorem polyReal_cons (c : Rat) (p : List Rat) : polyReal (c :: p) = (c : ℝ) + Real.pi * polyReal p := rfl

@[simp] theorem polyReal_pCons (c : Rat) (p : List Rat) :
    polyReal (pCons c p) = (c : ℝ) + Real.pi * polyReal p := by
  unfold pCons
  split
  · rename_i h
    simp only [Bool.and_eq_true, List.isEmpty_iff, qIsZero_eq, decide_eq_true_eq] at h
    simp [h.1, h.2]
  · rfl

@[simp] theorem polyReal_pAdd (p q : List Rat) : polyReal (pAdd p q) = polyReal p + polyReal q := by
  induction p, q using pAdd.induct with
  | case1 q => simp [pAdd]
  | case2 p h => simp [pAdd]
  | case3 a p b q ih => simp [pAdd, ih]; ring

@[simp] theorem polyReal_pScale (c : Rat) (p : List Rat) : polyReal (pScale c p) = (c : ℝ) * polyReal p := by
  induction p with
  | nil => simp [pScale]
  | cons a p ih => simp [pScale, ih]; ring

@[simp] theorem polyReal_pSub (p q : List Rat) : polyReal (pSub p q) = polyReal p - polyReal q := by
  simp [pSub, sub_eq_add_neg]

@[simp] theorem polyReal_pMul (p q : List Rat) : polyReal (pMul p q) = polyReal p * polyReal q := by
  induction p with
  | nil => simp [pMul]
  | cons a p ih => simp [pMul, ih]; ring

theorem polyReal_of_zeros {p : List Rat} (h : p.all qIsZero = true) : polyReal p = 0 := by
  induction p with
  | nil => rfl
  | cons a p ih =>
    simp only [List.all_cons, Bool.and_eq_true, qIsZero_eq, decide_eq_true_eq] at h
    simp [h.1, ih h.2]

theorem polyReal_of_constant {p : List Rat} (h : pConstant p = true) : polyReal p = ((p.headD 0 : Rat) : ℝ) := by
  cases p with
  | nil => simp
  | cons a p => simp [polyReal_of_zeros (p := p) h]

theorem pMonomial_spec {p : List Rat} {c : Rat} {k : Nat} (h : pMonomial p = some (c, k)) :
    c ≠ 0 ∧ polyReal p = (c : ℝ) * Real.pi ^ k := by
  induction p generalizing k with
  | nil => simp [pMonomial] at h
  | cons a p ih =>
    unfold pMonomial at h
    split at h
    · rename_i hp
      rw [List.isEmpty_iff] at hp
      split at h
      · cases h
      · rename_i ha
        obtain ⟨rfl, rfl⟩ : a = c ∧ 0 = k := by simpa using h
        exact ⟨by simpa using ha, by simp [hp]⟩
    · split at h
      · rename_i ha
        replace ha : a = 0 := by simpa using ha
        split at h
        · rename_i c' k' hm
          obtain ⟨rfl, rfl⟩ : c' = c ∧ k' + 1 = k := by simpa using h
          obtain ⟨hc, he⟩ := ih hm
          exact ⟨hc, by simp [ha, he]; ring⟩
        · cases h
      · cases h

theorem pShiftDown_spec {k : Nat} {p r : List Rat} (h : pShiftDown k p = some r) :
    polyReal p = Real.pi ^ k * polyReal r := by
  induction k generalizing p with
  | zero => simp [pShiftDown] at h; simp [h]
  | succ k ih =>
    cases p with
    | nil => simp [pShiftDown] at h; simp [h]
    | cons a p =>
      unfold pShiftDown at h
      split at h
      · rename_i ha
        replace ha : a = 0 := by simpa using ha
        simp [ha, ih h]; ring
      · cases h

theorem pDiv_spec {p q r : List Rat} (h : pDiv p q = some r) : polyReal r = polyReal p / polyReal q := by
  unfold pDiv at h
  split at h
  · rename_i c k hm
    obtain ⟨hc, hq⟩ := pMonomial_spec hm
    split at h
    · rename_i r' hs
      have hr : pScale (qInv c) r' = r := by simpa using h
      have hpi : Real.pi ^ k ≠ 0 := pow_ne_zero _ Real.pi_ne_zero
      have hc' : (c : ℝ) ≠ 0 := by exact_mod_cast hc
      rw [← hr, pShiftDown_spec hs, hq, polyReal_pScale, qInv_eq, Rat.cast_inv]
      field_simp
    · cases h
  · cases h

/-! ### The operations of the instance: exact for every operand -/

@[simp] theorem toReal_poly (p : List Rat) : toReal (.poly p) = polyReal p := rfl

@[simp] theorem toReal_numOfRat (q : Rat) : toReal (numOfRat q) = (q : ℝ) := by simp [numOfRat]

@[simp] theorem toReal_numOfInt (i : Int) : toReal (numOfInt i) = (i : ℝ) := by
  simp [numOfInt, Rat.mkRat_one]

@[simp] theorem toReal_numOfPi (q : Rat) : toReal (numOfPi q) = (q : ℝ) * Real.pi := by
  simp [numOfPi]; ring

@[simp] theorem toReal_numPi : toReal numPi = Real.pi := by simp [numPi]
@[simp] theorem toReal_numTwoPi : toReal numTwoPi = 2 * Real.pi := by simp [numTwoPi]

@[simp] theorem toReal_numAdd (a b : ExactNum) : toReal (numAdd a b) = toReal a + toReal b := by
  unfold numAdd; split <;> simp [toReal]

@[simp] theorem toReal_numSub (a b : ExactNum) : toReal (numSub a b) = toReal a - toReal b := by
  unfold numSub; split <;> simp [toReal]

@[simp] theorem toReal_numMul (a b : ExactNum) : toReal (numMul a b) = toReal a * toReal b := by
  unfold numMul; split <;> simp [toReal]

@[simp] theorem toReal_numDiv (a b : ExactNum) : toReal (numDiv a b) = toReal a / toReal b := by
  unfold numDiv
  split
  · split
    · rename_i h; simp [pDiv_spec h]
    · rfl
  · rfl

/-! ### Rational sines -/

theorem rationalSine_spec {c q : Rat} (h : rationalSine c = some q) : Real.sin ((c : ℝ) * Real.pi) = (q : ℝ) := by
  have key : ∀ r : Rat, c - 2 * (qFloor (mkRat 1 2 * c) : Rat) = r →
      Real.sin ((c : ℝ) * Real.pi) = Real.sin ((r : ℝ) * Real.pi) := by
    intro r hr
    have : (c : ℝ) * Real.pi = (r : ℝ) * Real.pi + (qFloor (mkRat 1 2 * c) : ℤ) * (2 * Real.pi) := by
      have hc : (c : ℝ) = (r : ℝ) + 2 * ((qFloor (mkRat 1 2 * c) : ℤ) : ℝ) := by
        rw [← hr]; push_cast; ring
      rw [hc]; ring
    rw [this, Real.sin_add_int_mul_two_pi]
  have k2 : (mkRat 1 2 : Rat) = 1 / 2 := by norm_num [Rat.mkRat_eq_div]
  unfold rationalSine at h
  simp only [qSub_eq, qMul_eq, Rat.mkRat_one] at h
  split_ifs at h with h1 h2 h3 h4 h5 h6 h7 h8 <;> obtain rfl := Option.some.inj h
  · rw [key _ h1]; simp
  · rw [key _ h2, show ((mkRat 1 6 : Rat) : ℝ) * Real.pi = Real.pi / 6 by
      rw [Rat.mkRat_eq_div]; push_cast; ring, Real.sin_pi_div_six, Rat.mkRat_eq_div]; push_cast; ring
  · rw [key _ h3, show ((mkRat 1 2 : Rat) : ℝ) * Real.pi = Real.pi / 2 by
      rw [Rat.mkRat_eq_div]; push_cast; ring, Real.sin_pi_div_two]; simp
  · rw [key _ h4, show ((mkRat 5 6 : Rat) : ℝ) * Real.pi = Real.pi - Real.pi / 6 by
      rw [Rat.mkRat_eq_div]; push_cast; ring, Real.sin_pi_sub, Real.sin_pi_div_six, Rat.mkRat_eq_div]
    push_cast; ring
  · rw [key _ h5]; simp
  · rw [key _ h6, show ((mkRat 7 6 : Rat) : ℝ) * Real.pi = Real.pi / 6 + Real.pi by
      rw [Rat.mkRat_eq_div]; push_cast; ring, Real.sin_add_pi, Real.sin_pi_div_six, Rat.mkRat_eq_div]
    push_cast; ring
  · rw [key _ h7, show ((mkRat 3 2 : Rat) : ℝ) * Real.pi = Real.pi / 2 + Real.pi by
      rw [Rat.mkRat_eq_div]; push_cast; ring, Real.sin_add_pi, Real.sin_pi_div_two]; simp
  · rw [key _ h8, show ((mkRat 11 6 : Rat) : ℝ) * Real.pi = 2 * Real.pi - Real.pi / 6 by
      rw [Rat.mkRat_eq_div]; push_cast; ring, Real.sin_two_pi_sub, Real.sin_pi_div_six, Rat.mkRat_eq_div]
    push_cast; ring

@[simp] theorem toReal_numSin (a : ExactNum) : toReal (numSin a) = Real.sin (toReal a) := by
  unfold numSin
  split
  · simp
  · rename_i z c
    split
    · rename_i hz
      replace hz : z = 0 := by simpa using hz
      split
      · rename_i q hq
        have := rationalSine_spec hq
        simp [hz, ← this, mul_comm]
      · rfl
    · rfl
  · rfl

end Sys2Proof.Machine
end

