-- ==== Sys2Proof/Laws/Enclosure.lean ====
section
/-! SUPPORT. The enclosures of Machine/Num.lean are sound: the real number lies between the two ends. -/

namespace Sys2Proof.Machine

/-- `x` encloses `v` at precision `p`. -/
def Encloses (p : Nat) (x : Int × Int) (v : ℝ) : Prop :=
  (x.1 : ℝ) ≤ v * 2 ^ p ∧ v * 2 ^ p ≤ (x.2 : ℝ)

/-! ### Rounding -/

theorem ediv_le_real (a : Int) {b : Int} (hb : 0 < b) : ((a / b : Int) : ℝ) ≤ (a : ℝ) / b := by
  have hb' : (0 : ℝ) < (b : ℝ) := by exact_mod_cast hb
  rw [le_div_iff₀ hb']
  exact_mod_cast Int.ediv_mul_le a (ne_of_gt hb)

theorem real_lt_ediv_add_one (a : Int) {b : Int} (hb : 0 < b) : (a : ℝ) / b < ((a / b : Int) : ℝ) + 1 := by
  have hb' : (0 : ℝ) < (b : ℝ) := by exact_mod_cast hb
  rw [div_lt_iff₀ hb']
  have := Int.lt_ediv_add_one_mul_self a hb
  exact_mod_cast this

theorem real_le_neg_ediv (a : Int) {b : Int} (hb : 0 < b) : (a : ℝ) / b ≤ ((-((-a) / b) : Int) : ℝ) := by
  have := ediv_le_real (-a) hb
  push_cast at this ⊢
  rw [neg_div] at this
  linarith

theorem two_pow_pos_int (p : Nat) : (0 : Int) < 2 ^ p := by positivity

theorem downBy_le (p : Nat) (x : Int) : (downBy p x : ℝ) ≤ (x : ℝ) / 2 ^ p := by
  have := ediv_le_real x (two_pow_pos_int p)
  simpa [downBy] using this

theorem le_upBy (p : Nat) (x : Int) : (x : ℝ) / 2 ^ p ≤ (upBy p x : ℝ) := by
  have := real_le_neg_ediv x (two_pow_pos_int p)
  simpa [upBy] using this

/-! ### Arithmetic -/

theorem iAdd_sound {p : Nat} {x y : Int × Int} {v w : ℝ} (hx : Encloses p x v) (hy : Encloses p y w) :
    Encloses p (iAdd x y) (v + w) := by
  obtain ⟨h1, h2⟩ := hx
  obtain ⟨h3, h4⟩ := hy
  constructor <;> simp only [iAdd] <;> push_cast <;> linarith [add_mul v w (2 ^ p)]

theorem iSub_sound {p : Nat} {x y : Int × Int} {v w : ℝ} (hx : Encloses p x v) (hy : Encloses p y w) :
    Encloses p (iSub x y) (v - w) := by
  obtain ⟨h1, h2⟩ := hx
  obtain ⟨h3, h4⟩ := hy
  constructor <;> simp only [iSub] <;> push_cast <;> linarith [sub_mul v w (2 ^ p)]

theorem mul_between {a b c d v w : ℝ} (h1 : a ≤ v) (h2 : v ≤ b) (h3 : c ≤ w) (h4 : w ≤ d) :
    min (min (a * c) (a * d)) (min (b * c) (b * d)) ≤ v * w ∧
      v * w ≤ max (max (a * c) (a * d)) (max (b * c) (b * d)) := by
  have lo : ∀ u, min (u * c) (u * d) ≤ u * w := by
    intro u
    rcases le_total 0 u with hu | hu
    · exact min_le_of_left_le (mul_le_mul_of_nonneg_left h3 hu)
    · exact min_le_of_right_le (mul_le_mul_of_nonpos_left h4 hu)
  have hi : ∀ u, u * w ≤ max (u * c) (u * d) := by
    intro u
    rcases le_total 0 u with hu | hu
    · exact le_max_of_le_right (mul_le_mul_of_nonneg_left h4 hu)
    · exact le_max_of_le_left (mul_le_mul_of_nonpos_left h3 hu)
  rcases le_total 0 w with hw | hw
  · exact ⟨(min_le_left _ _).trans ((lo a).trans (mul_le_mul_of_nonneg_right h1 hw)),
      (mul_le_mul_of_nonneg_right h2 hw).trans ((hi b).trans (le_max_right _ _))⟩
  · exact ⟨(min_le_right _ _).trans ((lo b).trans (mul_le_mul_of_nonpos_right h2 hw)),
      (mul_le_mul_of_nonpos_right h1 hw).trans ((hi a).trans (le_max_left _ _))⟩

theorem iMul_sound {p : Nat} {x y : Int × Int} {v w : ℝ} (hx : Encloses p x v) (hy : Encloses p y w) :
    Encloses p (iMul p x y) (v * w) := by
  have hp : (0 : ℝ) < 2 ^ p := by positivity
  obtain ⟨h1, h2⟩ := mul_between hx.1 hx.2 hy.1 hy.2
  have he : v * w * 2 ^ p = (v * 2 ^ p * (w * 2 ^ p)) / 2 ^ p := by field_simp
  constructor
  · refine (downBy_le p _).trans ?_
    rw [he]
    refine div_le_div_of_nonneg_right ?_ hp.le
    push_cast
    exact h1
  · refine le_trans ?_ (le_upBy p _)
    rw [he]
    refine div_le_div_of_nonneg_right ?_ hp.le
    push_cast
    exact h2

theorem iInv_sound {p : Nat} {y z : Int × Int} {w : ℝ} (hy : Encloses p y w) (h : iInv p y = some z) :
    Encloses p z w⁻¹ := by
  have hp : (0 : ℝ) < 2 ^ p := by positivity
  obtain ⟨h3, h4⟩ := hy
  have hone : ((2 ^ (2 * p) : Int) : ℝ) = 2 ^ p * 2 ^ p := by push_cast; ring
  have he : w⁻¹ * 2 ^ p = (2 ^ p * 2 ^ p) / (w * 2 ^ p) := by
    rw [div_mul_eq_div_div, div_eq_mul_inv, div_eq_mul_inv]
    rcases eq_or_ne w 0 with hw | hw
    · simp [hw]
    · field_simp
  unfold iInv at h
  simp only at h
  split at h
  · rename_i h1
    obtain rfl := Option.some.inj h
    have hy1 : (0 : ℝ) < (y.1 : ℝ) := by exact_mod_cast h1
    have hy2 : (0 : ℝ) < (y.2 : ℝ) := hy1.trans_le (h3.trans h4)
    have hy2' : 0 < y.2 := by exact_mod_cast hy2
    constructor
    · refine (ediv_le_real _ hy2').trans ?_
      rw [he, hone]
      exact div_le_div_of_nonneg_left (by positivity) (hy1.trans_le h3) h4
    · refine le_trans ?_ (real_le_neg_ediv _ h1)
      rw [he, hone]
      exact div_le_div_of_nonneg_left (by positivity) hy1 h3
  · split at h
    · rename_i h2
      obtain rfl := Option.some.inj h
      have hy2 : (y.2 : ℝ) < 0 := by exact_mod_cast h2
      have hy1 : (y.1 : ℝ) < 0 := (h3.trans h4).trans_lt hy2
      have hy1' : y.1 < 0 := by exact_mod_cast hy1
      have hw : w * 2 ^ p < 0 := h4.trans_lt hy2
      constructor
      · refine (ediv_le_real _ (by omega)).trans ?_
        rw [he, Int.cast_neg, hone, Int.cast_neg, neg_div_neg_eq, ← neg_le_neg_iff, ← div_neg, ← div_neg]
        exact div_le_div_of_nonneg_left (by positivity) (by linarith) (by linarith)
      · have := ediv_le_real (2 ^ (2 * p)) (b := -y.1) (by omega)
        rw [he]
        push_cast at this ⊢
        rw [show ((2 : ℝ) ^ (2 * p)) = 2 ^ p * 2 ^ p by ring] at this
        rw [← neg_le_neg_iff, neg_neg, ← div_neg]
        refine this.trans ?_
        exact div_le_div_of_nonneg_left (by positivity) (by linarith) (by linarith)
    · cases h

theorem iRat_sound (p : Nat) (c : Rat) : Encloses p (iRat p c) (c : ℝ) := by
  have hd : (0 : Int) < (c.den : Int) := by exact_mod_cast c.den_pos
  have he : (c : ℝ) * 2 ^ p = ((c.num * 2 ^ p : Int) : ℝ) / ((c.den : Int) : ℝ) := by
    rw [Rat.cast_def]; push_cast; ring
  exact ⟨by rw [he]; exact ediv_le_real _ hd, by rw [he]; exact real_le_neg_ediv _ hd⟩

/-! ### π -/

theorem alternating_bound {f : ℕ → ℝ} {l : ℝ} (hf : Antitone f)
    (hl : Filter.Tendsto (fun n => ∑ i ∈ Finset.range n, (-1) ^ i * f i) Filter.atTop (nhds l)) (n : ℕ) :
    |l - ∑ i ∈ Finset.range n, (-1) ^ i * f i| ≤ f n := by
  rcases Nat.even_or_odd' n with ⟨k, hk | hk⟩
  · have h1 := hf.alternating_series_le_tendsto hl k
    have h2 := hf.tendsto_le_alternating_series hl k
    rw [Finset.sum_range_succ] at h2
    subst hk
    rw [abs_le]
    have : ((-1 : ℝ) ^ (2 * k)) = 1 := by simp
    rw [this] at h2
    constructor <;> linarith [hf (Nat.zero_le (2 * k))]
  · have h1 := hf.alternating_series_le_tendsto hl (k + 1)
    have h2 := hf.tendsto_le_alternating_series hl k
    rw [show 2 * (k + 1) = (2 * k + 1) + 1 by ring, Finset.sum_range_succ] at h1
    subst hk
    rw [abs_le]
    have : ((-1 : ℝ) ^ (2 * k + 1)) = -1 := by simp [pow_succ]
    rw [this] at h1
    constructor <;> linarith

theorem arctanSum_close (k p n : Nat) (hk : 2 ≤ k) (hn : 2 ^ p ≤ k ^ (2 * n + 1)) :
    |Real.arctan ((k : ℝ)⁻¹) * 2 ^ p - (arctanSum k p n : ℝ)| ≤ n + 1 := by
  have hk0 : (0 : ℝ) < k := by positivity
  have hk1 : (k : ℝ)⁻¹ < 1 := inv_lt_one_of_one_lt₀ (by exact_mod_cast (by omega : 1 < k))
  set f : ℕ → ℝ := fun i => (k : ℝ)⁻¹ ^ (2 * i + 1) / (2 * i + 1) with hfdef
  have hanti : Antitone f := by
    intro i j hij
    simp only [hfdef]
    have h1 : (k : ℝ)⁻¹ ^ (2 * j + 1) ≤ (k : ℝ)⁻¹ ^ (2 * i + 1) :=
      pow_le_pow_of_le_one (by positivity) hk1.le (by omega)
    have h2 : (2 * (i : ℝ) + 1) ≤ 2 * j + 1 := by
      have : (i : ℝ) ≤ j := by exact_mod_cast hij
      linarith
    exact div_le_div₀ (by positivity) h1 (by positivity) h2
  have hsum := (Real.hasSum_arctan (x := (k : ℝ)⁻¹)
    (by rw [Real.norm_of_nonneg (by positivity)]; exact hk1)).tendsto_sum_nat
  have hsum' : Filter.Tendsto (fun n => ∑ i ∈ Finset.range n, (-1) ^ i * f i) Filter.atTop
      (nhds (Real.arctan (k : ℝ)⁻¹)) := by
    refine hsum.congr fun n => Finset.sum_congr rfl fun i _ => ?_
    simp only [hfdef]; push_cast; ring
  have hb := alternating_bound hanti hsum' n
  have hround : ∀ m : ℕ, |(∑ i ∈ Finset.range m, (-1) ^ i * f i) * 2 ^ p - (arctanSum k p m : ℝ)| ≤ m := by
    intro m
    induction m with
    | zero => simp [arctanSum]
    | succ m ih =>
      have hd : 0 < (2 * m + 1) * k ^ (2 * m + 1) := by positivity
      have hd' : (0 : Int) < (((2 * m + 1) * k ^ (2 * m + 1) : Nat) : Int) := by exact_mod_cast hd
      have h1 := ediv_le_real ((2 ^ p : Nat) : Int) hd'
      have h2 := real_lt_ediv_add_one ((2 ^ p : Nat) : Int) hd'
      have hf : f m * 2 ^ p = (((2 ^ p : Nat) : Int) : ℝ) / ((((2 * m + 1) * k ^ (2 * m + 1) : Nat) : Int) : ℝ) := by
        simp only [hfdef]; push_cast; rw [inv_pow]; field_simp
      rw [← hf] at h1 h2
      set F : ℤ := ((2 ^ p : Nat) : Int) / (((2 * m + 1) * k ^ (2 * m + 1) : Nat) : Int) with hF
      have hF' : (((2 ^ p / ((2 * m + 1) * k ^ (2 * m + 1)) : Nat)) : Int) = F := by
        rw [hF]; exact Int.natCast_div _ _
      rw [Finset.sum_range_succ, arctanSum, hF']
      push_cast
      have habs : |(-1 : ℝ) ^ m * (f m * 2 ^ p - F)| ≤ 1 := by
        rw [abs_mul, abs_pow, abs_neg, abs_one, one_pow, one_mul, abs_le]
        constructor <;> linarith
      calc _ = |((∑ i ∈ Finset.range m, (-1) ^ i * f i) * 2 ^ p - (arctanSum k p m : ℝ))
                + (-1 : ℝ) ^ m * (f m * 2 ^ p - F)| := by congr 1; ring
        _ ≤ m + 1 := (abs_add_le _ _).trans (add_le_add ih habs)
  have htail : f n * 2 ^ p ≤ 1 := by
    simp only [hfdef]
    have h2 : (2 : ℝ) ^ p ≤ (k : ℝ) ^ (2 * n + 1) := by exact_mod_cast hn
    rw [inv_pow, div_mul_eq_mul_div, inv_mul_eq_div, div_div, div_le_one (by positivity)]
    calc (2 : ℝ) ^ p ≤ (k : ℝ) ^ (2 * n + 1) := h2
      _ ≤ (k : ℝ) ^ (2 * n + 1) * (2 * n + 1) := by
        refine le_mul_of_one_le_right (by positivity) ?_
        have : (0 : ℝ) ≤ n := by positivity
        linarith
  have hp : (0 : ℝ) < 2 ^ p := by positivity
  calc _ = |(Real.arctan ((k : ℝ)⁻¹) - ∑ i ∈ Finset.range n, (-1) ^ i * f i) * 2 ^ p
            + ((∑ i ∈ Finset.range n, (-1) ^ i * f i) * 2 ^ p - (arctanSum k p n : ℝ))| := by congr 1; ring
    _ ≤ 1 + n := by
      refine (abs_add_le _ _).trans (add_le_add ?_ (hround n))
      rw [abs_mul, abs_of_pos hp]
      exact (mul_le_mul_of_nonneg_right hb hp.le).trans htail
    _ = n + 1 := by ring

theorem iPi_sound (p : Nat) : Encloses p (iPi p) Real.pi := by
  have hpow : ∀ k : Nat, 4 ≤ k → 2 ^ p ≤ k ^ (2 * (p / 4 + 1) + 1) := by
    intro k hk
    calc 2 ^ p ≤ 2 ^ (2 * (2 * (p / 4 + 1) + 1)) := Nat.pow_le_pow_right (by norm_num) (by omega)
      _ = 4 ^ (2 * (p / 4 + 1) + 1) := by rw [pow_mul]; norm_num
      _ ≤ k ^ (2 * (p / 4 + 1) + 1) := Nat.pow_le_pow_left hk _
  have h5 := arctanSum_close 5 p (p / 4 + 1) (by norm_num) (hpow 5 (by norm_num))
  have h239 := arctanSum_close 239 p (p / 4 + 1) (by norm_num) (hpow 239 (by norm_num))
  have hm := Real.four_mul_arctan_inv_5_sub_arctan_inv_239
  rw [Nat.cast_ofNat] at h5 h239
  rw [abs_le] at h5 h239
  have hpi : Real.pi * 2 ^ p
      = 16 * (Real.arctan 5⁻¹ * 2 ^ p) - 4 * (Real.arctan 239⁻¹ * 2 ^ p) := by
    have : Real.pi = 16 * Real.arctan 5⁻¹ - 4 * Real.arctan 239⁻¹ := by linarith
    rw [this]; ring
  clear hpow
  unfold iPi
  generalize p / 4 + 1 = n at h5 h239 ⊢
  constructor <;> dsimp only <;> push_cast <;> rw [hpi] <;> linarith [h5.1, h5.2, h239.1, h239.2]

/-! ### The sine -/

theorem exp_series_im (x : ℝ) (n : ℕ) :
    (∑ m ∈ Finset.range (2 * n + 1), ((x : ℂ) * Complex.I) ^ m / (m.factorial : ℂ)).im
      = ∑ k ∈ Finset.range n, (-1) ^ k * x ^ (2 * k + 1) / ((2 * k + 1).factorial : ℝ) := by
  have hI : ∀ k : ℕ, (Complex.I) ^ (2 * k) = ((-1 : ℝ) ^ k : ℝ) := by
    intro k; rw [pow_mul, Complex.I_sq]; push_cast; rfl
  induction n with
  | zero => simp
  | succ n ih =>
    rw [show 2 * (n + 1) + 1 = (2 * n + 1) + 1 + 1 by ring, Finset.sum_range_succ _ (2 * n + 1 + 1),
      Finset.sum_range_succ _ (2 * n + 1), Finset.sum_range_succ _ n, Complex.add_im, Complex.add_im, ih]
    have h1 : ((x : ℂ) * Complex.I) ^ (2 * n + 1) / ((2 * n + 1).factorial : ℂ)
        = (((-1) ^ n * x ^ (2 * n + 1) / ((2 * n + 1).factorial : ℝ) : ℝ) : ℂ) * Complex.I := by
      rw [mul_pow, pow_succ Complex.I, hI]; push_cast; ring
    have h2 : ((x : ℂ) * Complex.I) ^ (2 * n + 1 + 1) / ((2 * n + 1 + 1).factorial : ℂ)
        = (((-1) ^ (n + 1) * x ^ (2 * n + 2) / ((2 * n + 1 + 1).factorial : ℝ) : ℝ) : ℂ) := by
      rw [mul_pow, show 2 * n + 1 + 1 = 2 * (n + 1) by ring, hI]; push_cast; ring
    rw [h1, h2, Complex.ofReal_im, Complex.im_ofReal_mul, Complex.I_im]
    ring

/-- The partial sums of the sine series are as close as twice the next odd power. -/
theorem sin_series_close (x : ℝ) (n : ℕ) (hx : |x| ≤ n + 1) :
    |Real.sin x - ∑ k ∈ Finset.range n, (-1) ^ k * x ^ (2 * k + 1) / ((2 * k + 1).factorial : ℝ)|
      ≤ 2 * |x| ^ (2 * n + 1) / ((2 * n + 1).factorial : ℝ) := by
  have hnorm : ‖(x : ℂ) * Complex.I‖ = |x| := by simp
  have hb := Complex.exp_bound' (x := (x : ℂ) * Complex.I) (n := 2 * n + 1) (by
    rw [hnorm, div_le_iff₀ (by positivity)]; push_cast; linarith)
  rw [← exp_series_im, ← Complex.exp_ofReal_mul_I_im, ← Complex.sub_im]
  refine (Complex.abs_im_le_norm _).trans (hb.trans (le_of_eq ?_))
  rw [hnorm]; ring

theorem sineSum_close (x : Int) (p n : Nat) :
    |(∑ k ∈ Finset.range n, (-1) ^ k * ((x : ℝ) / 2 ^ p) ^ (2 * k + 1) / ((2 * k + 1).factorial : ℝ)) * 2 ^ p
      - (sineSum x p n : ℝ)| ≤ n := by
  induction n with
  | zero => simp [sineSum]
  | succ m ih =>
    have hd : (0 : Int) < ((((2 * m + 1).factorial * 2 ^ (2 * m * p) : Nat)) : Int) := by positivity
    have h1 := ediv_le_real (x ^ (2 * m + 1)) hd
    have h2 := real_lt_ediv_add_one (x ^ (2 * m + 1)) hd
    set T : ℝ := ((x : ℝ) / 2 ^ p) ^ (2 * m + 1) / ((2 * m + 1).factorial : ℝ) * 2 ^ p with hT
    have he : ((x ^ (2 * m + 1) : Int) : ℝ) / ((((2 * m + 1).factorial * 2 ^ (2 * m * p) : Nat) : Int) : ℝ) = T := by
      rw [hT]; push_cast
      have h2p : ((2 : ℝ) ^ p) ^ (2 * m + 1) = 2 ^ (2 * m * p) * 2 ^ p := by rw [← pow_mul, ← pow_add]; ring
      rw [div_pow, h2p]; field_simp
    rw [he] at h1 h2
    set F : ℤ := x ^ (2 * m + 1) / (((2 * m + 1).factorial * 2 ^ (2 * m * p) : Nat) : Int) with hF
    rw [Finset.sum_range_succ, sineSum, ← hF]
    have habs : |(-1 : ℝ) ^ m * (T - F)| ≤ 1 := by
      rw [abs_mul, abs_pow, abs_neg, abs_one, one_pow, one_mul, abs_le]
      constructor <;> linarith
    push_cast
    refine le_trans (le_of_eq ?_) ((abs_add_le _ _).trans (add_le_add ih habs))
    congr 1; rw [hT]; ring

theorem iSin_sound {p : Nat} {x : Int × Int} {v : ℝ} (hx : Encloses p x v) :
    Encloses p (iSin p x) (Real.sin v) := by
  have hp : (0 : ℝ) < 2 ^ p := by positivity
  have hlow : -(2 : ℝ) ^ p ≤ Real.sin v * 2 ^ p := by
    have := mul_le_mul_of_nonneg_right (Real.neg_one_le_sin v) hp.le; linarith
  have hhigh : Real.sin v * 2 ^ p ≤ (2 : ℝ) ^ p := by
    have := mul_le_mul_of_nonneg_right (Real.sin_le_one v) hp.le; linarith
  unfold iSin
  dsimp only
  split
  · rename_i hbig
    generalize hn : p / 4 + 16 = n
    have hn16 : (16 : ℝ) ≤ n := by exact_mod_cast (by omega : 16 ≤ n)
    set u : ℝ := (x.1 : ℝ) / 2 ^ p with hu
    have hnat : ((x.1.natAbs : Int) : ℝ) = |(x.1 : ℝ)| := by rw [Int.natCast_natAbs]; push_cast; rfl
    have habs : |u| = |(x.1 : ℝ)| / 2 ^ p := by rw [hu, abs_div, abs_of_pos hp]
    have hu8 : |u| ≤ 8 := by
      rw [habs, div_le_iff₀ hp, ← hnat]; exact_mod_cast hbig
    have hser := sin_series_close u n (by linarith)
    have hsum := sineSum_close x.1 p n
    rw [← hu] at hsum
    have hlip := Real.abs_sin_sub_sin_le v u
    have hvu : |v - u| * 2 ^ p ≤ (x.2 : ℝ) - x.1 := by
      have h0 : (x.1 : ℝ) = u * 2 ^ p := by rw [hu]; field_simp
      have h1 : |v - u| * 2 ^ p = |v * 2 ^ p - x.1| := by
        rw [h0, ← sub_mul, abs_mul, abs_of_pos hp]
      rw [h1, abs_of_nonneg (by linarith [hx.1])]
      linarith [hx.2]
    have hd : (0 : Int) < ((((2 * n + 1).factorial * 2 ^ (2 * n * p) : Nat)) : Int) := by positivity
    have htail := (real_lt_ediv_add_one (2 * (x.1.natAbs : Int) ^ (2 * n + 1)) hd).le
    have he : ((2 * (x.1.natAbs : Int) ^ (2 * n + 1) : Int) : ℝ)
        / ((((2 * n + 1).factorial * 2 ^ (2 * n * p) : Nat) : Int) : ℝ)
        = 2 * |u| ^ (2 * n + 1) / ((2 * n + 1).factorial : ℝ) * 2 ^ p := by
      rw [habs, div_pow]
      have h2p : ((2 : ℝ) ^ p) ^ (2 * n + 1) = 2 ^ (2 * n * p) * 2 ^ p := by rw [← pow_mul, ← pow_add]; ring
      rw [h2p, Int.cast_mul, Int.cast_pow, hnat]; push_cast; field_simp
    rw [he] at htail
    generalize 2 * (x.1.natAbs : Int) ^ (2 * n + 1) / (((2 * n + 1).factorial * 2 ^ (2 * n * p) : Nat) : Int) = tl at htail
    have hclose : |Real.sin v * 2 ^ p - (sineSum x.1 p n : ℝ)| ≤ n + (tl + 1) + ((x.2 : ℝ) - x.1) := by
      set S : ℝ := ∑ k ∈ Finset.range n, (-1) ^ k * u ^ (2 * k + 1) / ((2 * k + 1).factorial : ℝ)
      have e1 : |(Real.sin v - Real.sin u) * 2 ^ p| ≤ (x.2 : ℝ) - x.1 := by
        rw [abs_mul, abs_of_pos hp]; exact (mul_le_mul_of_nonneg_right hlip hp.le).trans hvu
      have e2 : |(Real.sin u - S) * 2 ^ p| ≤ tl + 1 := by
        rw [abs_mul, abs_of_pos hp]; exact (mul_le_mul_of_nonneg_right hser hp.le).trans htail
      have e3 := abs_add_le ((Real.sin v - Real.sin u) * 2 ^ p) ((Real.sin u - S) * 2 ^ p)
      have e4 := abs_add_le ((Real.sin v - Real.sin u) * 2 ^ p + (Real.sin u - S) * 2 ^ p) (S * 2 ^ p - (sineSum x.1 p n : ℝ))
      have e5 : (Real.sin v - Real.sin u) * 2 ^ p + (Real.sin u - S) * 2 ^ p + (S * 2 ^ p - (sineSum x.1 p n : ℝ))
          = Real.sin v * 2 ^ p - (sineSum x.1 p n : ℝ) := by ring
      rw [e5] at e4
      linarith
    rw [abs_le] at hclose
    constructor
    · dsimp only; push_cast
      exact max_le hlow (by linarith [hclose.1])
    · dsimp only; push_cast
      exact le_min hhigh (by linarith [hclose.2])
  · constructor <;> dsimp only <;> push_cast <;> assumption

/-! ### Expressions -/

theorem iPoly_sound (p : Nat) (cs : List Rat) : Encloses p (iPoly p cs) (polyReal cs) := by
  induction cs with
  | nil => simp [iPoly, Encloses]
  | cons c cs ih => exact iAdd_sound (iRat_sound p c) (iMul_sound (iPi_sound p) ih)

theorem enclose_sound {p : Nat} {a : ExactNum} {x : Int × Int} (h : enclose p a = some x) :
    Encloses p x (toReal a) := by
  induction a generalizing x with
  | poly cs =>
    obtain rfl := Option.some.inj h
    exact iPoly_sound p cs
  | add a b iha ihb =>
    unfold enclose at h
    split at h
    · rename_i ha hb; obtain rfl := Option.some.inj h; exact iAdd_sound (iha ha) (ihb hb)
    · cases h
  | sub a b iha ihb =>
    unfold enclose at h
    split at h
    · rename_i ha hb; obtain rfl := Option.some.inj h; exact iSub_sound (iha ha) (ihb hb)
    · cases h
  | mul a b iha ihb =>
    unfold enclose at h
    split at h
    · rename_i ha hb; obtain rfl := Option.some.inj h; exact iMul_sound (iha ha) (ihb hb)
    · cases h
  | div a b iha ihb =>
    unfold enclose at h
    split at h
    · rename_i ha hb
      split at h
      · rename_i hz
        obtain rfl := Option.some.inj h
        rw [toReal, div_eq_mul_inv]
        exact iMul_sound (iha ha) (iInv_sound (ihb hb) hz)
      · cases h
    · cases h
  | sin a iha =>
    unfold enclose at h
    split at h
    · rename_i ha; obtain rfl := Option.some.inj h; exact iSin_sound (iha ha)
    · cases h

/-! ### Decided floors and signs -/

theorem firstDecided_spec {f : Nat → Option Int} {P : Int → Prop} (hf : ∀ p v, f p = some v → P v) :
    ∀ {fuel p v}, firstDecided f fuel p = some v → P v := by
  intro fuel
  induction fuel with
  | zero => intro p v h; cases h
  | succ n ih =>
    intro p v h
    unfold firstDecided at h
    split at h
    · rename_i w hw; obtain rfl := Option.some.inj h; exact hf _ _ hw
    · exact ih h

theorem downBy_floor_le {p : Nat} {x : Int × Int} {v : ℝ} (hx : Encloses p x v) : downBy p x.1 ≤ ⌊v⌋ := by
  have hp : (0 : ℝ) < 2 ^ p := by positivity
  rw [Int.le_floor]
  refine (downBy_le p x.1).trans ?_
  rw [div_le_iff₀ hp]; exact hx.1

theorem floor_le_downBy {p : Nat} {x : Int × Int} {v : ℝ} (hx : Encloses p x v) : ⌊v⌋ ≤ downBy p x.2 := by
  have hp : (0 : ℝ) < 2 ^ p := by positivity
  have h1 : v ≤ (x.2 : ℝ) / 2 ^ p := by rw [le_div_iff₀ hp]; exact hx.2
  have h2 := real_lt_ediv_add_one x.2 (two_pow_pos_int p)
  rw [← Int.lt_add_one_iff, Int.floor_lt]
  refine h1.trans_lt ?_
  have : ((2 ^ p : Int) : ℝ) = 2 ^ p := by push_cast; rfl
  rw [this] at h2
  push_cast
  exact h2

theorem floorAt_sound {a : ExactNum} {p : Nat} {k : Int} (h : floorAt a p = some k) : k = ⌊toReal a⌋ := by
  unfold floorAt at h
  split at h
  · rename_i x hx
    have hs := enclose_sound hx
    split at h
    · rename_i he
      obtain rfl := Option.some.inj h
      exact le_antisymm (downBy_floor_le hs) (he ▸ floor_le_downBy hs)
    · cases h
  · cases h

theorem decidedFloor_sound {a : ExactNum} {k : Int} (h : decidedFloor a = some k) : k = ⌊toReal a⌋ := by
  unfold decidedFloor at h
  split at h
  · split at h
    · rename_i p hp
      obtain rfl := Option.some.inj h
      rw [toReal_poly, polyReal_of_constant hp, qFloor_real]
    · exact firstDecided_spec (P := fun k => k = ⌊toReal _⌋) (fun p v hv => floorAt_sound hv) h
  · exact firstDecided_spec (P := fun k => k = ⌊toReal a⌋) (fun p v hv => floorAt_sound hv) h

theorem signAt_sound {a : ExactNum} {p : Nat} {k : Int} (h : signAt a p = some k) : (k : ℝ) = SignType.sign (toReal a) := by
  have hp : (0 : ℝ) < 2 ^ p := by positivity
  unfold signAt at h
  split at h
  · rename_i x hx
    have hs := enclose_sound hx
    split at h
    · rename_i he
      obtain rfl := Option.some.inj h
      have : 0 < toReal a := by
        have h0 : (0 : ℝ) < (x.1 : ℝ) := by exact_mod_cast he
        exact pos_of_mul_pos_left (h0.trans_le hs.1) hp.le
      simp [sign_pos this]
    · split at h
      · rename_i he
        obtain rfl := Option.some.inj h
        have : toReal a < 0 := by
          have h0 : (x.2 : ℝ) < 0 := by exact_mod_cast he
          exact neg_of_mul_neg_left (hs.2.trans_lt h0) hp.le
        simp [sign_neg this]
      · cases h
  · cases h

theorem qSign_real (c : Rat) : ((qSign c : Int) : ℝ) = SignType.sign (c : ℝ) := by
  unfold qSign
  rcases lt_trichotomy c 0 with h | h | h
  · rw [Int.sign_eq_neg_one_of_neg (Rat.num_neg.mpr h), sign_neg (by exact_mod_cast h)]; simp
  · simp [h]
  · rw [Int.sign_eq_one_of_pos (Rat.num_pos.mpr h), sign_pos (by exact_mod_cast h)]; simp

theorem decidedSign_sound {a : ExactNum} {k : Int} (h : decidedSign a = some k) :
    (k : ℝ) = SignType.sign (toReal a) := by
  unfold decidedSign at h
  split at h
  · split at h
    · rename_i hz
      obtain rfl := Option.some.inj h
      rw [toReal_poly, polyReal_of_constant hz, qSign_real]
    split at h
    · rename_i c k' hm
      obtain rfl := Option.some.inj h
      obtain ⟨-, he⟩ := pMonomial_spec hm
      rw [toReal_poly, he, qSign_real, sign_mul, sign_pos (pow_pos Real.pi_pos k'), mul_one]
    · exact firstDecided_spec (P := fun k : Int => (k : ℝ) = SignType.sign (toReal _)) (fun p v hv => signAt_sound hv) h
  · exact firstDecided_spec (P := fun k : Int => (k : ℝ) = SignType.sign (toReal _)) (fun p v hv => signAt_sound hv) h

end Sys2Proof.Machine
end

