-- ==== Sys2Proof/Laws/Pi.lean ====
section
/-! SUPPORT. π is transcendental (Lindemann), from Mathlib's analytic part of the Lindemann-Weierstrass theorem: what
makes the exact floors and comparisons of Machine/Exact.lean total on polynomials in π. -/

namespace Sys2Proof.Machine

open Polynomial

/-- An algebraic number other than 0 is a root of an integer polynomial whose value at 0 is not 0. -/
theorem exists_int_root {v : ℂ} (hv : IsIntegral ℚ v) (h0 : v ≠ 0) :
    ∃ f : ℤ[X], f.eval 0 ≠ 0 ∧ aeval v f = 0 := by
  obtain ⟨b, hb, hf⟩ := IsLocalization.integerNormalization_spec (nonZeroDivisors ℤ) (minpoly ℚ v)
  have hb0 : b ≠ 0 := nonZeroDivisors.ne_zero hb
  refine ⟨IsLocalization.integerNormalization (nonZeroDivisors ℤ) (minpoly ℚ v), ?_, ?_⟩
  · intro h
    have h1 := congrArg (coeff · 0) hf
    rw [coeff_map, coeff_smul, coeff_zero_eq_eval_zero, h, map_zero] at h1
    exact (smul_ne_zero hb0 (minpoly.coeff_zero_ne_zero hv h0)) h1.symm
  · have := congrArg (aeval v) hf
    rw [aeval_map_algebraMap] at this
    rw [this]
    simp

theorem integral_scaled {r : ℂ} {l : ℤ} (hl : IsIntegral ℤ (l • r)) (p : ℤ[X]) (m : ℕ) (hm : p.natDegree ≤ m) :
    IsIntegral ℤ (l ^ m • aeval r p) := by
  rw [aeval_eq_sum_range' (Nat.lt_succ_of_le hm), Finset.smul_sum]
  refine IsIntegral.sum _ fun i hi => ?_
  have hi : i ≤ m := Nat.lt_succ_iff.mp (Finset.mem_range.mp hi)
  have : l ^ m • p.coeff i • r ^ i = (l ^ (m - i) * p.coeff i) • (l • r) ^ i := by
    have hm : (l : ℂ) ^ m = l ^ (m - i) * l ^ i := by rw [← pow_add, Nat.sub_add_cancel hi]
    simp only [zsmul_eq_mul, mul_pow]
    push_cast
    rw [hm]; ring
  rw [this]
  exact (hl.pow i).smul _

section
variable {K : Type} [Field K] [Algebra ℚ K] [FiniteDimensional ℚ K] [IsGalois ℚ K] (φ : K →ₐ[ℚ] ℂ)
  {ι : Type} [Fintype ι] (V : ι → K)

/-- A sum of exponentials of a family of algebraic numbers closed under conjugation is not 0 if 0 is among them. -/
theorem exp_sum_ne_zero (hV : ∀ τ : Gal(K/ℚ), ∃ e : Equiv.Perm ι, ∀ i, τ (V i) = V (e i)) (i0 : ι)
    (hi0 : V i0 = 0) : ∑ i, Complex.exp (φ (V i)) ≠ 0 := by
  classical
  intro hsum
  have hint : ∀ i, IsIntegral ℚ (φ (V i)) := fun i => (Algebra.IsIntegral.isIntegral (V i)).map φ
  let S := Finset.univ.filter fun i => V i ≠ 0
  have hS : ∀ i, i ∈ S ↔ V i ≠ 0 := by simp [S]
  have hφ : ∀ i, V i ≠ 0 → φ (V i) ≠ 0 := fun i h => by simpa using h
  choose g hg0 hg1 using fun i : S => exists_int_root (hint i) (hφ i ((hS i).1 i.2))
  set f : ℤ[X] := ∏ i, g i with hf
  have hf0 : f.eval 0 ≠ 0 := by
    rw [hf, eval_prod]; exact Finset.prod_ne_zero_iff.mpr fun i _ => hg0 i
  have hfz : f ≠ 0 := by rintro h; simp [h] at hf0
  have hroot : ∀ i, V i ≠ 0 → aeval (φ (V i)) f = 0 := by
    intro i hi
    rw [hf, map_prod]
    exact Finset.prod_eq_zero (Finset.mem_univ ⟨i, (hS i).2 hi⟩) (hg1 ⟨i, (hS i).2 hi⟩)
  have hroot' : ∀ i, V i ≠ 0 → φ (V i) ∈ f.aroots ℂ := fun i hi => mem_aroots.mpr ⟨hfz, hroot i hi⟩
  obtain ⟨c, hc⟩ := LindemannWeierstrass.exp_polynomial_approx f hf0
  set l := f.leadingCoeff with hl
  have hl0 : l ≠ 0 := by rw [hl]; simpa using hfz
  set d := f.natDegree
  -- the count of zeros
  set k := (Finset.univ.filter fun i => V i = 0).card with hk
  have hk0 : 0 < k := Finset.card_pos.mpr ⟨i0, by simpa using hi0⟩
  have hsplit : ∑ i ∈ S, Complex.exp (φ (V i)) = -(k : ℂ) := by
    have := Finset.sum_filter_add_sum_filter_not Finset.univ (fun i => V i = 0) fun i => Complex.exp (φ (V i))
    rw [hsum] at this
    have h2 : ∑ i ∈ Finset.univ.filter (fun i => V i = 0), Complex.exp (φ (V i)) = k := by
      rw [Finset.sum_congr rfl (g := fun _ => 1)]
      · simp [hk]
      · intro i hi; simp at hi; simp [hi]
    rw [h2] at this
    exact eq_neg_of_add_eq_zero_right this
  -- the sum of polynomial values is an integer
  have hT : ∀ (p : ℤ[X]) (m : ℕ), p.natDegree ≤ m → ∃ t : ℤ, (l : ℂ) ^ m * ∑ i ∈ S, aeval (φ (V i)) p = t := by
    intro p m hm
    have hfix : ∀ τ : Gal(K/ℚ), τ (∑ i ∈ S, aeval (V i) p) = ∑ i ∈ S, aeval (V i) p := by
      intro τ
      obtain ⟨e, he⟩ := hV τ
      rw [map_sum]
      refine Finset.sum_bij (fun i _ => e i) ?_ ?_ ?_ ?_
      · intro i hi
        rw [hS] at *
        rw [← he]; simpa using hi
      · intro i _ j _ h; exact e.injective h
      · intro j hj
        refine ⟨e.symm j, ?_, by simp⟩
        rw [hS] at *
        intro h
        have := he (e.symm j)
        rw [h] at this
        simp at this
        exact hj this.symm
      · intro i _
        have : τ (aeval (V i) p) = aeval (τ (V i)) p := by
          have := (Polynomial.aeval_algHom_apply (τ.toAlgHom.restrictScalars ℤ) (V i) p).symm
          simpa using this
        rw [this, he]
    obtain ⟨q, hq⟩ := (IsGalois.mem_range_algebraMap_iff_fixed _).mpr hfix
    have hφp : ∀ i, φ (aeval (V i) p) = aeval (φ (V i)) p := by
      intro i
      have := (Polynomial.aeval_algHom_apply (φ.restrictScalars ℤ) (V i) p).symm
      simpa using this
    have hq' : ∑ i ∈ S, aeval (φ (V i)) p = (q : ℂ) := by
      have := congrArg φ hq
      rw [map_sum] at this
      simp only [hφp] at this
      rw [← this]; simp
    have hI : IsIntegral ℤ ((l : ℂ) ^ m * ∑ i ∈ S, aeval (φ (V i)) p) := by
      rw [Finset.mul_sum]
      refine IsIntegral.sum _ fun i hi => ?_
      have := integral_scaled (isIntegral_leadingCoeff_smul f _ (hroot i ((hS i).1 hi))) p m hm
      simpa [zsmul_eq_mul] using this
    rw [hq'] at hI ⊢
    have hI2 : IsIntegral ℤ ((l : ℚ) ^ m * q) := by
      have : (l : ℂ) ^ m * q = algebraMap ℚ ℂ ((l : ℚ) ^ m * q) := by simp
      rw [this] at hI
      exact (isIntegral_algebraMap_iff (algebraMap ℚ ℂ).injective).mp hI
    obtain ⟨t, ht⟩ := IsIntegrallyClosed.isIntegral_iff.mp hI2
    refine ⟨t, ?_⟩
    have := congrArg (fun x : ℚ => (x : ℂ)) ht
    simpa using this.symm
  -- a large prime
  have hlim := FloorSemiring.tendsto_pow_div_factorial_atTop (|(l : ℝ)| ^ d * c)
  have hlim2 : Filter.Tendsto (fun n : ℕ => (S.card : ℝ) * (|(l : ℝ)| ^ d * c) * ((|(l : ℝ)| ^ d * c) ^ n / n.factorial))
      Filter.atTop (nhds 0) := by simpa using hlim.const_mul ((S.card : ℝ) * (|(l : ℝ)| ^ d * c))
  obtain ⟨N, hN⟩ := Filter.eventually_atTop.mp (hlim2.eventually (gt_mem_nhds (zero_lt_one' ℝ)))
  obtain ⟨q, hq1, hq⟩ := Nat.exists_infinite_primes (N + 1 + (f.eval 0).natAbs + 1 + l.natAbs + k + 1)
  obtain ⟨n, hn, gp, hgp, hb⟩ := hc q (by omega) hq
  obtain ⟨t, ht⟩ := hT gp (q * d) (hgp.trans (Nat.sub_le _ _))
  have hnorm : ‖(l : ℂ) ^ (q * d) * ∑ i ∈ S, ((n : ℂ) * Complex.exp (φ (V i)) - q * aeval (φ (V i)) gp)‖ < 1 := by
    rw [norm_mul]
    have h1 : ‖∑ i ∈ S, ((n : ℂ) * Complex.exp (φ (V i)) - q * aeval (φ (V i)) gp)‖
        ≤ S.card * (c ^ q / (q - 1).factorial) := by
      refine (norm_sum_le _ _).trans ?_
      rw [← nsmul_eq_mul]
      refine Finset.sum_le_card_nsmul _ _ _ fun i hi => ?_
      have := hb (hroot' i ((hS i).1 hi))
      simpa [zsmul_eq_mul, nsmul_eq_mul] using this
    have h2 := hN (q - 1) (by omega)
    have h3 : ‖(l : ℂ) ^ (q * d)‖ = (|(l : ℝ)| ^ d) ^ q := by
      rw [norm_pow, mul_comm q d, pow_mul]
      simp
    calc _ ≤ (|(l : ℝ)| ^ d) ^ q * (S.card * (c ^ q / (q - 1).factorial)) := by
            rw [h3]; exact mul_le_mul_of_nonneg_left h1 (by positivity)
      _ = (S.card : ℝ) * (|(l : ℝ)| ^ d * c) * ((|(l : ℝ)| ^ d * c) ^ (q - 1) / (q - 1).factorial) := by
            have : q = (q - 1) + 1 := by have := hq.pos; omega
            conv_lhs => rw [this]
            simp only [Nat.add_sub_cancel, pow_succ, mul_pow]
            ring
      _ < 1 := h2
  have hint2 : (l : ℂ) ^ (q * d) * ∑ i ∈ S, ((n : ℂ) * Complex.exp (φ (V i)) - q * aeval (φ (V i)) gp)
      = ((-(l ^ (q * d) * n * k) - q * t : ℤ) : ℂ) := by
    rw [Finset.sum_sub_distrib, ← Finset.mul_sum, ← Finset.mul_sum, hsplit, mul_sub]
    rw [show (l : ℂ) ^ (q * d) * (q * ∑ i ∈ S, aeval (φ (V i)) gp) = q * (l ^ (q * d) * ∑ i ∈ S, aeval (φ (V i)) gp) by ring, ht]
    push_cast; ring
  rw [hint2, Complex.norm_intCast] at hnorm
  have hz : -(l ^ (q * d) * n * k) - q * t = 0 := by
    have : |(-(l ^ (q * d) * n * k) - q * t : ℤ)| < 1 := by exact_mod_cast hnorm
    exact Int.abs_lt_one_iff.mp this
  have hdvd : (q : ℤ) ∣ l ^ (q * d) * n * k := ⟨-t, by linarith⟩
  have hqp : Prime (q : ℤ) := Nat.prime_iff_prime_int.mp hq
  rcases hqp.dvd_or_dvd hdvd with h | h
  · rcases hqp.dvd_or_dvd h with h | h
    · have := Int.le_of_dvd (Int.natAbs_pos.mpr hl0 |> fun h => by exact_mod_cast h) (Int.dvd_natCast.mpr (by simpa using Int.natAbs_dvd_natAbs.mpr (hqp.dvd_of_dvd_pow h)) : (q : ℤ) ∣ (l.natAbs : ℤ))
      omega
    · exact hn h
  · have := Int.le_of_dvd (by exact_mod_cast hk0) h
    omega

theorem prod_one_add_exp_ne_zero (a : K) : ∏ σ : Gal(K/ℚ), (1 + Complex.exp (φ (σ a))) ≠ 0 := by
  classical
  have h := exp_sum_ne_zero φ (fun s : Finset Gal(K/ℚ) => ∑ σ ∈ s, σ a) ?_ ∅ (by simp)
  · rw [Finset.prod_one_add, Finset.powerset_univ]
    refine fun h0 => h ?_
    rw [← h0]
    refine Finset.sum_congr rfl fun s _ => ?_
    rw [map_sum, Complex.exp_sum]
  · intro τ
    refine ⟨⟨fun s => s.map (Equiv.mulLeft τ).toEmbedding, fun s => s.map (Equiv.mulLeft τ⁻¹).toEmbedding, ?_, ?_⟩, ?_⟩
    · intro s; ext; simp
    · intro s; ext; simp
    · intro s; simp [map_sum]

end

/-- π is transcendental (Lindemann). -/
theorem transcendental_pi : Transcendental ℚ Real.pi := by
  classical
  intro halg
  have hI : IsIntegral ℚ (Complex.I) := by
    refine ⟨X ^ 2 + 1, by monicity!, by simp⟩
  have hpi : IsIntegral ℚ (Real.pi : ℂ) := by
    have := halg.isIntegral.map (Complex.ofRealAm.restrictScalars ℚ)
    simpa using this
  have ha : IsIntegral ℚ ((Real.pi : ℂ) * Complex.I) := hpi.mul hI
  let L := IntermediateField.adjoin ℚ {(Real.pi : ℂ) * Complex.I}
  have : FiniteDimensional ℚ L := IntermediateField.adjoin.finiteDimensional ha
  let K := IntermediateField.normalClosure ℚ L ℂ
  have : FiniteDimensional ℚ K := inferInstance
  have : Normal ℚ K := (Algebra.IsAlgebraic.isNormalClosure_normalClosure (F := ℚ) (K := L) (L := ℂ) fun x => IsAlgClosed.splits _).normal
  have : @IsGalois ℚ _ K _ K.algebra' := @IsGalois.mk ℚ _ K _ K.algebra' inferInstance this
  have hmem : (Real.pi : ℂ) * Complex.I ∈ K :=
    AlgHom.fieldRange_le_normalClosure L.val
      ⟨⟨_, IntermediateField.mem_adjoin_simple_self ℚ _⟩, rfl⟩
  refine prod_one_add_exp_ne_zero K.val ⟨_, hmem⟩ (Finset.prod_eq_zero (Finset.mem_univ 1) ?_)
  show 1 + Complex.exp ((Real.pi : ℂ) * Complex.I) = 0
  rw [Complex.exp_pi_mul_I]; ring

end Sys2Proof.Machine
end

