-- ==== Sys2Proof/Laws/Converge.lean ====
section
/-! SUPPORT. The enclosures of Machine/Num.lean become as narrow as one likes, so some precision decides the floor and
the sign of a value that is known to be irrational. -/

namespace Sys2Proof.Machine

open Filter Topology

/-- The width of an enclosure at precision `p`, as a real. -/
noncomputable def width (p : Nat) (x : Int × Int) : ℝ := ((x.2 : ℝ) - x.1) / 2 ^ p

/-- A family of enclosures of `v`, one at each precision, whose width tends to 0. -/
def Tight (e : Nat → Int × Int) (v : ℝ) : Prop :=
  (∀ p, Encloses p (e p) v) ∧ Tendsto (fun p => width p (e p)) atTop (𝓝 0)

theorem width_nonneg {p : Nat} {x : Int × Int} {v : ℝ} (h : Encloses p x v) : 0 ≤ width p x :=
  div_nonneg (by linarith [h.1.trans h.2]) (by positivity)

/-- An enclosing family with a bound on its widths that tends to 0. -/
theorem tight_of_le {e : Nat → Int × Int} {v : ℝ} {b : Nat → ℝ} (he : ∀ p, Encloses p (e p) v)
    (hb : ∀ᶠ p in atTop, width p (e p) ≤ b p) (hb0 : Tendsto b atTop (𝓝 0)) : Tight e v :=
  ⟨he, tendsto_of_tendsto_of_tendsto_of_le_of_le' tendsto_const_nhds hb0
    (Eventually.of_forall fun p => width_nonneg (he p)) hb⟩

theorem tendsto_div_two_pow (c : ℝ) : Tendsto (fun p : Nat => c / 2 ^ p) atTop (𝓝 0) := by
  have := (tendsto_inv_atTop_zero.comp (tendsto_pow_atTop_atTop_of_one_lt (r := (2 : ℝ)) (by norm_num))).const_mul c
  simpa [div_eq_mul_inv] using this

theorem tendsto_nat_div_two_pow : Tendsto (fun p : Nat => (p : ℝ) / 2 ^ p) atTop (𝓝 0) := by
  have := tendsto_pow_const_div_const_pow_of_one_lt 1 (r := (2 : ℝ)) (by norm_num)
  simpa using this

/-! ### Each operation keeps families tight -/

theorem tight_add {e f : Nat → Int × Int} {v w : ℝ} (he : Tight e v) (hf : Tight f w) :
    Tight (fun p => iAdd (e p) (f p)) (v + w) := by
  refine tight_of_le (fun p => iAdd_sound (he.1 p) (hf.1 p)) (Eventually.of_forall fun p => le_of_eq ?_)
    (by simpa using he.2.add hf.2)
  simp only [width, iAdd]; push_cast; ring

theorem tight_sub {e f : Nat → Int × Int} {v w : ℝ} (he : Tight e v) (hf : Tight f w) :
    Tight (fun p => iSub (e p) (f p)) (v - w) := by
  refine tight_of_le (fun p => iSub_sound (he.1 p) (hf.1 p)) (Eventually.of_forall fun p => le_of_eq ?_)
    (by simpa using he.2.add hf.2)
  simp only [width, iSub]; push_cast; ring

theorem downBy_ge (p : Nat) (x : Int) : (x : ℝ) / 2 ^ p - 1 ≤ (downBy p x : ℝ) := by
  have := real_lt_ediv_add_one x (two_pow_pos_int p)
  have h2 : ((2 ^ p : Int) : ℝ) = 2 ^ p := by push_cast; rfl
  rw [h2] at this
  unfold downBy; linarith

theorem upBy_le (p : Nat) (x : Int) : (upBy p x : ℝ) ≤ (x : ℝ) / 2 ^ p + 1 := by
  have := downBy_ge p (-x)
  unfold downBy at this; unfold upBy; push_cast at this ⊢
  rw [neg_div] at this; linarith

theorem iMul_width {p : Nat} {x y : Int × Int} {v w : ℝ} (hx : Encloses p x v) (hy : Encloses p y w) :
    width p (iMul p x y) ≤ (|v| + width p x) * width p y + (|w| + width p y) * width p x + 2 / 2 ^ p := by
  have hp : (0 : ℝ) < 2 ^ p := by positivity
  have hwx := width_nonneg hx
  have hwy := width_nonneg hy
  set a : ℝ := (x.1 : ℝ) / 2 ^ p with ha
  set b : ℝ := (x.2 : ℝ) / 2 ^ p with hb
  set c : ℝ := (y.1 : ℝ) / 2 ^ p with hc
  set d : ℝ := (y.2 : ℝ) / 2 ^ p with hd
  have ea : (x.1 : ℝ) = a * 2 ^ p := by rw [ha]; field_simp
  have eb : (x.2 : ℝ) = b * 2 ^ p := by rw [hb]; field_simp
  have ec : (y.1 : ℝ) = c * 2 ^ p := by rw [hc]; field_simp
  have ed : (y.2 : ℝ) = d * 2 ^ p := by rw [hd]; field_simp
  have wx : width p x = b - a := by rw [width, ea, eb]; field_simp
  have wy : width p y = d - c := by rw [width, ec, ed]; field_simp
  have hav : a ≤ v := by have := hx.1; rw [ea] at this; exact le_of_mul_le_mul_right this hp
  have hvb : v ≤ b := by have := hx.2; rw [eb] at this; exact le_of_mul_le_mul_right this hp
  have hcw : c ≤ w := by have := hy.1; rw [ec] at this; exact le_of_mul_le_mul_right this hp
  have hwd : w ≤ d := by have := hy.2; rw [ed] at this; exact le_of_mul_le_mul_right this hp
  rw [wx] at hwx ⊢
  rw [wy] at hwy ⊢
  set D := (|v| + (b - a)) * (d - c) + (|w| + (d - c)) * (b - a) with hD
  -- every product is within `D` of every other
  have near : ∀ r s r' s' : ℝ, a ≤ r → r ≤ b → c ≤ s → s ≤ d → a ≤ r' → r' ≤ b → c ≤ s' → s' ≤ d →
      r * s - r' * s' ≤ D := by
    intro r s r' s' h1 h2 h3 h4 h5 h6 h7 h8
    have e : r * s - r' * s' = r * (s - s') + s' * (r - r') := by ring
    have hr : |r| ≤ |v| + (b - a) := by
      have : |r| ≤ |v| + |r - v| := by have := abs_add_le v (r - v); simpa using this
      have h9 : |r - v| ≤ b - a := by rw [abs_le]; constructor <;> linarith
      linarith
    have hs : |s'| ≤ |w| + (d - c) := by
      have : |s'| ≤ |w| + |s' - w| := by have := abs_add_le w (s' - w); simpa using this
      have h9 : |s' - w| ≤ d - c := by rw [abs_le]; constructor <;> linarith
      linarith
    have f1 : r * (s - s') ≤ (|v| + (b - a)) * (d - c) := by
      refine (le_abs_self _).trans ?_
      rw [abs_mul]
      have : |s - s'| ≤ d - c := by rw [abs_le]; constructor <;> linarith
      exact mul_le_mul hr this (abs_nonneg _) (by positivity)
    have f2 : s' * (r - r') ≤ (|w| + (d - c)) * (b - a) := by
      refine (le_abs_self _).trans ?_
      rw [abs_mul]
      have : |r - r'| ≤ b - a := by rw [abs_le]; constructor <;> linarith
      exact mul_le_mul hs this (abs_nonneg _) (by positivity)
    rw [e]; linarith
  have hab : a ≤ b := hav.trans hvb
  have hcd : c ≤ d := hcw.trans hwd
  -- the four integer products, over `2 ^ p` twice
  have q : ∀ (m n : Int) (r s : ℝ), (m : ℝ) = r * 2 ^ p → (n : ℝ) = s * 2 ^ p →
      ((m * n : Int) : ℝ) / 2 ^ p = r * s * 2 ^ p := by
    intro m n r s hm hn; push_cast; rw [hm, hn]; field_simp
  set P : List (ℝ) := [a * c, a * d, b * c, b * d]
  have hmax : ∃ m : Int, ((max (max (x.1 * y.1) (x.1 * y.2)) (max (x.2 * y.1) (x.2 * y.2)) : Int)) = m ∧
      ∃ r s : ℝ, (m : ℝ) / 2 ^ p = r * s * 2 ^ p ∧ a ≤ r ∧ r ≤ b ∧ c ≤ s ∧ s ≤ d := by
    refine ⟨_, rfl, ?_⟩
    rcases max_choice (max (x.1 * y.1) (x.1 * y.2)) (max (x.2 * y.1) (x.2 * y.2)) with h | h <;> rw [h]
    · rcases max_choice (x.1 * y.1) (x.1 * y.2) with h | h <;> rw [h]
      · exact ⟨a, c, q _ _ _ _ ea ec, le_refl _, hab, le_refl _, hcd⟩
      · exact ⟨a, d, q _ _ _ _ ea ed, le_refl _, hab, hcd, le_refl _⟩
    · rcases max_choice (x.2 * y.1) (x.2 * y.2) with h | h <;> rw [h]
      · exact ⟨b, c, q _ _ _ _ eb ec, hab, le_refl _, le_refl _, hcd⟩
      · exact ⟨b, d, q _ _ _ _ eb ed, hab, le_refl _, hcd, le_refl _⟩
  have hmin : ∃ m : Int, ((min (min (x.1 * y.1) (x.1 * y.2)) (min (x.2 * y.1) (x.2 * y.2)) : Int)) = m ∧
      ∃ r s : ℝ, (m : ℝ) / 2 ^ p = r * s * 2 ^ p ∧ a ≤ r ∧ r ≤ b ∧ c ≤ s ∧ s ≤ d := by
    refine ⟨_, rfl, ?_⟩
    rcases min_choice (min (x.1 * y.1) (x.1 * y.2)) (min (x.2 * y.1) (x.2 * y.2)) with h | h <;> rw [h]
    · rcases min_choice (x.1 * y.1) (x.1 * y.2) with h | h <;> rw [h]
      · exact ⟨a, c, q _ _ _ _ ea ec, le_refl _, hab, le_refl _, hcd⟩
      · exact ⟨a, d, q _ _ _ _ ea ed, le_refl _, hab, hcd, le_refl _⟩
    · rcases min_choice (x.2 * y.1) (x.2 * y.2) with h | h <;> rw [h]
      · exact ⟨b, c, q _ _ _ _ eb ec, hab, le_refl _, le_refl _, hcd⟩
      · exact ⟨b, d, q _ _ _ _ eb ed, hab, le_refl _, hcd, le_refl _⟩
  obtain ⟨M, hM, r, s, hrs, h1, h2, h3, h4⟩ := hmax
  obtain ⟨m, hm, r', s', hrs', h5, h6, h7, h8⟩ := hmin
  have hu := upBy_le p M
  have hl := downBy_ge p m
  have hn := near r s r' s' h1 h2 h3 h4 h5 h6 h7 h8
  unfold width iMul
  dsimp only
  rw [hM, hm, div_le_iff₀ hp]
  rw [hrs] at hu
  rw [hrs'] at hl
  have : (D + 2 / 2 ^ p) * 2 ^ p = D * 2 ^ p + 2 := by field_simp
  rw [this]
  have := mul_le_mul_of_nonneg_right hn hp.le
  linarith [sub_mul (r * s) (r' * s') ((2 : ℝ) ^ p)]

theorem tight_mul {e f : Nat → Int × Int} {v w : ℝ} (he : Tight e v) (hf : Tight f w) :
    Tight (fun p => iMul p (e p) (f p)) (v * w) := by
  refine tight_of_le (fun p => iMul_sound (he.1 p) (hf.1 p))
    (Eventually.of_forall fun p => iMul_width (he.1 p) (hf.1 p)) ?_
  have h1 := (he.2.const_add |v|).mul hf.2
  have h2 := (hf.2.const_add |w|).mul he.2
  simpa using (h1.add h2).add (tendsto_div_two_pow 2)

theorem tight_rat (c : Rat) : Tight (fun p => iRat p c) (c : ℝ) := by
  refine tight_of_le (fun p => iRat_sound p c) (Eventually.of_forall fun p => ?_) (tendsto_div_two_pow 2)
  have hd : (0 : Int) < (c.den : Int) := by exact_mod_cast c.den_pos
  have h1 := real_lt_ediv_add_one (c.num * 2 ^ p) hd
  have h2 := real_lt_ediv_add_one (-(c.num * 2 ^ p)) hd
  unfold width iRat
  rw [div_le_div_iff_of_pos_right (by positivity)]
  push_cast at *
  rw [neg_div] at h2
  linarith

theorem tight_pi : Tight iPi Real.pi := by
  refine tight_of_le iPi_sound (b := fun p => 40 * ((p : ℝ) / 2 ^ p) + 80 / 2 ^ p) (Eventually.of_forall fun p => ?_) ?_
  · have hn : ((p / 4 + 1 : Nat) : ℝ) ≤ p + 1 := by exact_mod_cast Nat.succ_le_succ (Nat.div_le_self p 4)
    unfold width iPi
    generalize p / 4 + 1 = n at hn ⊢
    rw [← mul_div_assoc, ← add_div, div_le_div_iff_of_pos_right (by positivity)]
    push_cast at *
    linarith
  · simpa using (tendsto_nat_div_two_pow.const_mul 40).add (tendsto_div_two_pow 80)

theorem tight_poly (cs : List Rat) : Tight (fun p => iPoly p cs) (polyReal cs) := by
  induction cs with
  | nil => exact tight_of_le (fun p => iPoly_sound p []) (Eventually.of_forall fun p => by simp [width, iPoly]) tendsto_const_nhds
  | cons c cs ih => exact tight_add (tight_rat c) (tight_mul tight_pi ih)

theorem tight_sin {e : Nat → Int × Int} {v : ℝ} (he : Tight e v) (hv : |v| < 8) :
    Tight (fun p => iSin p (e p)) (Real.sin v) := by
  -- the remainder of the series, at the number of terms of precision `p`
  set T : Nat → ℝ := fun p => 2 * ((8 : ℝ) ^ (2 * (p / 4 + 16) + 1) / (2 * (p / 4 + 16) + 1).factorial) with hT
  have hT0 : Tendsto T atTop (𝓝 0) := by
    have h1 : Tendsto (fun p : Nat => 2 * (p / 4 + 16) + 1) atTop atTop := by
      refine tendsto_atTop_mono (f := fun p => p / 4) (fun p => by show p / 4 ≤ _; omega) ?_
      exact Nat.tendsto_div_const_atTop (by norm_num)
    have := ((FloorSemiring.tendsto_pow_div_factorial_atTop (8 : ℝ)).comp h1).const_mul 2
    rw [mul_zero] at this
    exact this
  refine tight_of_le (fun p => iSin_sound (he.1 p))
    (b := fun p => 2 * (((p : ℝ) / 2 ^ p) + 17 / 2 ^ p + T p + width p (e p))) ?_ ?_
  · have hsmall : ∀ᶠ p in atTop, width p (e p) < 8 - |v| := he.2.eventually (gt_mem_nhds (by linarith))
    filter_upwards [hsmall] with p hw
    have hp : (0 : ℝ) < 2 ^ p := by positivity
    have hx := he.1 p
    generalize e p = x at hx hw ⊢
    have hnat : ((x.1.natAbs : Int) : ℝ) = |(x.1 : ℝ)| := by rw [Int.natCast_natAbs]; push_cast; rfl
    have habs : |(x.1 : ℝ)| ≤ 8 * 2 ^ p := by
      have hw' : (x.2 : ℝ) - x.1 < (8 - |v|) * 2 ^ p := by
        rw [width, div_lt_iff₀ hp] at hw; exact hw
      have h1 : |(x.1 : ℝ) - v * 2 ^ p| ≤ (x.2 : ℝ) - x.1 := by
        rw [abs_le]; constructor <;> linarith [hx.1, hx.2]
      have h2 := abs_add_le ((x.1 : ℝ) - v * 2 ^ p) (v * 2 ^ p)
      rw [sub_add_cancel, abs_mul, abs_of_pos hp] at h2
      linarith [sub_mul 8 |v| ((2 : ℝ) ^ p)]
    have hcond : (x.1.natAbs : Int) ≤ 8 * 2 ^ p := by
      have : ((x.1.natAbs : Int) : ℝ) ≤ ((8 * 2 ^ p : Int) : ℝ) := by rw [hnat]; push_cast; exact habs
      exact_mod_cast this
    unfold iSin
    dsimp only
    rw [if_pos hcond]
    set n := p / 4 + 16 with hn
    have hd : (0 : Int) < ((((2 * n + 1).factorial * 2 ^ (2 * n * p) : Nat)) : Int) := by positivity
    have htail := ediv_le_real (2 * (x.1.natAbs : Int) ^ (2 * n + 1)) hd
    have hle : ((2 * (x.1.natAbs : Int) ^ (2 * n + 1) : Int) : ℝ)
        / ((((2 * n + 1).factorial * 2 ^ (2 * n * p) : Nat) : Int) : ℝ) ≤ T p * 2 ^ p := by
      rw [div_le_iff₀ (by exact_mod_cast hd)]
      push_cast
      have h3 : ((x.1.natAbs : ℕ) : ℝ) ≤ 8 * 2 ^ p := by
        rw [← hnat] at habs; exact_mod_cast habs
      have h4 : ((x.1.natAbs : ℕ) : ℝ) ^ (2 * n + 1) ≤ (8 * 2 ^ p) ^ (2 * n + 1) := pow_le_pow_left₀ (by positivity) h3 _
      have h5 : T p * 2 ^ p * (((2 * n + 1).factorial : ℝ) * 2 ^ (2 * n * p)) = 2 * (8 * 2 ^ p) ^ (2 * n + 1) := by
        have hTp : T p = 2 * (8 ^ (2 * n + 1) / ((2 * n + 1).factorial : ℝ)) := rfl
        rw [hTp, mul_pow, ← pow_mul]
        have : (2 : ℝ) ^ (p * (2 * n + 1)) = 2 ^ (2 * n * p) * 2 ^ p := by rw [← pow_add]; ring_nf
        rw [this]; field_simp
      rw [h5]
      simpa [Nat.cast_natAbs] using (mul_le_mul_of_nonneg_left h4 (by norm_num : (0 : ℝ) ≤ 2))
    generalize 2 * (x.1.natAbs : Int) ^ (2 * n + 1) / (((2 * n + 1).factorial * 2 ^ (2 * n * p) : Nat) : Int) = tl
      at htail
    have hnle : (n : ℝ) ≤ p + 16 := by
      have : n ≤ p + 16 := by omega
      exact_mod_cast this
    have key : ∀ S E O : ℝ, min O (S + E) - max (-O) (S - E) ≤ 2 * E := by
      intro S E O; linarith [min_le_right O (S + E), le_max_right (-O) (S - E)]
    unfold width
    dsimp only
    have hb : (2 * (((p : ℝ) / 2 ^ p) + 17 / 2 ^ p + T p + ((x.2 : ℝ) - x.1) / 2 ^ p)) * 2 ^ p
        = 2 * (p + 17 + T p * 2 ^ p + (x.2 - x.1)) := by field_simp
    rw [div_le_iff₀ hp, hb]
    push_cast
    refine (key _ _ _).trans ?_
    linarith
  · have := (((tendsto_nat_div_two_pow.add (tendsto_div_two_pow 17)).add hT0).add he.2).const_mul 2
    simpa using this

/-! ### Irrational values -/

/-- Some precision decides the floor of a value that is no integer. -/
theorem floorAt_of_tight {a : ExactNum} {e : Nat → Int × Int} (h : Tight e (toReal a))
    (ha : ∀ p, enclose p a = some (e p)) (hi : Irrational (toReal a)) : ∃ p, (floorAt a p).isSome = true := by
  set v := toReal a
  have hne : ∀ z : ℤ, v ≠ z := fun z hz => hi ⟨z, by simp [hz]⟩
  have h1 : (⌊v⌋ : ℝ) < v := lt_of_le_of_ne (Int.floor_le v) (fun h => hne _ h.symm)
  have h2 : v < ⌊v⌋ + 1 := Int.lt_floor_add_one v
  obtain ⟨p, hp1, hp2⟩ := ((h.2.eventually (gt_mem_nhds (sub_pos.mpr h1))).and
    (h.2.eventually (gt_mem_nhds (sub_pos.mpr h2)))).exists
  refine ⟨p, ?_⟩
  have hp : (0 : ℝ) < 2 ^ p := by positivity
  have hx := h.1 p
  have hlo : (downBy p (e p).1 : ℤ) = ⌊v⌋ := by
    refine le_antisymm (downBy_floor_le hx) ?_
    rw [downBy, Int.le_ediv_iff_mul_le (two_pow_pos_int p)]
    have : ((⌊v⌋ * 2 ^ p : ℤ) : ℝ) ≤ ((e p).1 : ℝ) := by
      rw [width, div_lt_iff₀ hp] at hp1
      push_cast; linarith [hx.2, sub_mul v (⌊v⌋ : ℝ) (2 ^ p)]
    exact_mod_cast this
  have hhi : (downBy p (e p).2 : ℤ) = ⌊v⌋ := by
    refine le_antisymm ?_ (floor_le_downBy hx)
    rw [← Int.lt_add_one_iff, downBy, Int.ediv_lt_iff_lt_mul (two_pow_pos_int p)]
    have : ((e p).2 : ℝ) < (((⌊v⌋ + 1) * 2 ^ p : ℤ) : ℝ) := by
      rw [width, div_lt_iff₀ hp] at hp2
      push_cast; linarith [hx.1, sub_mul ((⌊v⌋ : ℝ) + 1) v (2 ^ p)]
    exact_mod_cast this
  simp [floorAt, ha p, hlo, hhi]

/-- Some precision decides the sign of a value that is not 0. -/
theorem signAt_of_tight {a : ExactNum} {e : Nat → Int × Int} (h : Tight e (toReal a))
    (ha : ∀ p, enclose p a = some (e p)) (hi : Irrational (toReal a)) : ∃ p, (signAt a p).isSome = true := by
  set v := toReal a
  have hne : v ≠ 0 := fun hz => hi ⟨0, by simp [hz]⟩
  obtain ⟨p, hp1⟩ := (h.2.eventually (gt_mem_nhds (abs_pos.mpr hne))).exists
  refine ⟨p, ?_⟩
  have hp : (0 : ℝ) < 2 ^ p := by positivity
  have hx := h.1 p
  rw [width, div_lt_iff₀ hp] at hp1
  simp only [signAt, ha p]
  rcases lt_or_gt_of_ne hne with hv | hv
  · rw [abs_of_neg hv] at hp1
    have : ((e p).2 : ℝ) < 0 := by linarith [hx.1]
    have h2 : (e p).2 < 0 := by exact_mod_cast this
    split <;> simp_all
  · rw [abs_of_pos hv] at hp1
    have : (0 : ℝ) < ((e p).1 : ℝ) := by linarith [hx.2]
    have h2 : 0 < (e p).1 := by exact_mod_cast this
    simp [h2]

/-- A polynomial in π that is no constant is irrational. -/
theorem irrational_poly {p : List Rat} (h : pConstant p = false) : Irrational (polyReal p) := by
  classical
  -- the polynomial over the rationals
  have hq : ∀ p : List Rat, ∃ q : Polynomial ℚ, Polynomial.aeval Real.pi q = polyReal p
      ∧ ∀ n, q.coeff n = p.getD n 0 := by
    intro p
    induction p with
    | nil => exact ⟨0, by simp, by simp⟩
    | cons c cs ih =>
      obtain ⟨q, h1, h2⟩ := ih
      refine ⟨Polynomial.C c + Polynomial.X * q, by simp [h1], fun n => ?_⟩
      cases n with
      | zero => simp
      | succ n => simp [h2]
  rintro ⟨r, hr⟩
  obtain ⟨q, h1, h2⟩ := hq p
  have hz : q - Polynomial.C r ≠ 0 := by
    intro h0
    cases p with
    | nil => simp [pConstant] at h
    | cons c cs =>
      have : cs.all qIsZero = true := by
        rw [List.all_eq_true]
        intro x hx
        obtain ⟨n, hn, rfl⟩ := List.getElem_of_mem hx
        have h3 := congrArg (fun q : Polynomial ℚ => q.coeff (n + 1)) h0
        simp [h2, hn] at h3
        simp [h3]
      simp [pConstant, this] at h
  exact transcendental_pi ⟨_, hz, by simp [h1, hr]⟩

/-! ### The sine of a rational multiple of π -/

/-- The table of `rationalSine` is complete (Niven). -/
theorem irrational_sine {c : Rat} (h : rationalSine c = none) : Irrational (Real.sin ((c : ℝ) * Real.pi)) := by
  by_contra hirr
  obtain ⟨q, hq⟩ := exists_rat_of_not_irrational hirr
  -- the cosine of the angle a quarter turn back is rational too
  have hcos : ∃ q : ℚ, Real.cos (((c - 1 / 2 : ℚ) : ℝ) * Real.pi) = q := by
    refine ⟨q, ?_⟩
    rw [← hq, ← Real.cos_sub_pi_div_two]
    congr 1; push_cast; ring
  have hf := niven_fract_angle_div_pi_eq hcos
  -- the angle reduced to `[0, 2)`, in units of π
  have k2 : (mkRat 1 2 : Rat) = 1 / 2 := by norm_num [Rat.mkRat_eq_div]
  set r : ℚ := c - 2 * (⌊1 / 2 * c⌋ : ℚ) with hr
  have hr0 : 0 ≤ r := by have := Int.floor_le (1 / 2 * c); rw [hr]; linarith
  have hr2 : r < 2 := by have := Int.lt_floor_add_one (1 / 2 * c); rw [hr]; linarith
  set k : ℤ := ⌊c - 1 / 2⌋ - 2 * ⌊1 / 2 * c⌋ with hk
  have hrk : r = k + 1 / 2 + Int.fract (c - 1 / 2) := by
    have := Int.floor_add_fract (c - 1 / 2)
    rw [hr, hk]; push_cast; linarith
  have hk1 : -1 ≤ k := by
    have h1 : (-2 : ℚ) < k := by linarith [Int.fract_lt_one (c - 1 / 2)]
    have : (-2 : ℤ) < k := by exact_mod_cast h1
    omega
  have hk2 : k ≤ 1 := by
    have h1 : (k : ℚ) < 2 := by linarith [Int.fract_nonneg (c - 1 / 2)]
    have : k < 2 := by exact_mod_cast h1
    omega
  unfold rationalSine at h
  simp only [qSub_eq, qMul_eq, qFloor_eq, k2, Rat.mkRat_eq_div, Nat.cast_one, Int.cast_one, div_one, Int.cast_ofNat, Nat.cast_ofNat, ← hr] at h
  simp only [Set.mem_insert_iff, Set.mem_singleton_iff] at hf
  interval_cases k <;> rcases hf with hf | hf | hf | hf <;> rw [hf] at hrk <;> norm_num at hrk <;>
    first | (exfalso; linarith) | (rw [hrk] at h; norm_num at h; done) |
      (rw [hrk] at h; norm_num at h; simp at h)

theorem isSineForm_spec : ∀ a : ExactNum, isSineForm a = true →
    (∃ (u v : Rat) (x : ℝ), v ≠ 0 ∧ Irrational x ∧ toReal a = u + v * x)
      ∧ ∃ e : Nat → Int × Int, Tight e (toReal a) ∧ ∀ p, enclose p a = some (e p) := by
  intro a
  induction a with
  | poly p => simp [isSineForm]
  | sub a b _ _ => simp [isSineForm]
  | div a b _ _ => simp [isSineForm]
  | sin a _ =>
    intro h
    match a, h with
    | .poly [z, c], h =>
      simp only [isSineForm, Bool.and_eq_true, qIsZero_eq, decide_eq_true_eq, Option.isNone_iff_eq_none] at h
      obtain ⟨⟨⟨hz, h0⟩, h2⟩, hr⟩ := h
      have hv : toReal (.poly [z, c]) = (c : ℝ) * Real.pi := by simp [hz]; ring
      have hc0 : (0 : ℝ) ≤ (c : ℝ) := by exact_mod_cast Rat.num_nonneg.mp h0
      have hc2 : (c : ℝ) < 2 := by
        have hd : (0 : ℝ) < (c.den : ℝ) := by exact_mod_cast c.den_pos
        rw [Rat.cast_def, div_lt_iff₀ hd]
        exact_mod_cast h2
      have habs : |toReal (.poly [z, c])| < 8 := by
        rw [hv, abs_of_nonneg (by positivity)]
        nlinarith [Real.pi_pos, Real.pi_le_four]
      refine ⟨⟨0, 1, _, one_ne_zero, irrational_sine hr, ?_⟩, _, tight_sin (tight_poly [z, c]) habs, fun p => rfl⟩
      rw [toReal, hv]; simp
  | add a b iha _ =>
    intro h
    match b, h with
    | .poly q, h =>
      simp only [isSineForm, Bool.and_eq_true] at h
      obtain ⟨⟨u, v, x, hv, hx, ha⟩, e, he, hen⟩ := iha h.1
      refine ⟨⟨u + q.headD 0, v, x, hv, hx, ?_⟩, _, tight_add he (tight_poly q), fun p => ?_⟩
      · rw [toReal, toReal_poly, polyReal_of_constant h.2, ha]; push_cast; ring
      · simp [enclose, hen p]
  | mul a b iha _ =>
    intro h
    match b, h with
    | .poly q, h =>
      simp only [isSineForm, Bool.and_eq_true] at h
      obtain ⟨⟨ha', hc⟩, hq⟩ := h
      obtain ⟨⟨u, v, x, hv, hx, ha⟩, e, he, hen⟩ := iha ha'
      have hq0 : q.headD 0 ≠ 0 := by
        rintro h0
        cases q with
        | nil => simp at hq
        | cons c cs =>
          have hcs : cs.all qIsZero = true := hc
          have h0' : c = 0 := h0
          simp [h0', hcs] at hq
      refine ⟨⟨u * q.headD 0, v * q.headD 0, x, mul_ne_zero hv hq0, hx, ?_⟩, _, tight_mul he (tight_poly q),
        fun p => ?_⟩
      · rw [toReal, toReal_poly, polyReal_of_constant hc, ha]; push_cast; ring
      · simp [enclose, hen p]

theorem isIrrational_spec {a : ExactNum} (h : isIrrational a = true) :
    Irrational (toReal a) ∧ ∃ e : Nat → Int × Int, Tight e (toReal a) ∧ ∀ p, enclose p a = some (e p) := by
  unfold isIrrational at h
  split at h
  · rename_i p
    exact ⟨irrational_poly (by simpa using h), _, tight_poly p, fun _ => rfl⟩
  · obtain ⟨⟨u, v, x, hv, hx, ha⟩, he⟩ := isSineForm_spec a h
    refine ⟨?_, he⟩
    rw [ha]
    exact (hx.ratCast_mul hv).ratCast_add u

theorem floorAt_decides {a : ExactNum} (h : isIrrational a = true) : ∃ p, (floorAt a p).isSome = true := by
  obtain ⟨hi, e, he, hen⟩ := isIrrational_spec h
  exact floorAt_of_tight he hen hi

theorem signAt_decides {a : ExactNum} (h : isIrrational a = true) : ∃ p, (signAt a p).isSome = true := by
  obtain ⟨hi, e, he, hen⟩ := isIrrational_spec h
  exact signAt_of_tight he hen hi

end Sys2Proof.Machine
end

