-- ==== Sys2Proof/Machine/Exact.lean ====
section
/-! DEFINITION. The floor and the comparison of the machine's instance of `NUM`, and the instance (R11).  On every
value that a state of the machine gives rise to they are those of the real numbers (Laws/Exact.lean): decided at
once, or by a search over all precisions, which ends because the value is known to be irrational.  Only a term of
another shape, which no state of the machine forms, can be left to a free value (log entry 3). -/

namespace Sys2Proof.Machine

/-- The floor. -/
def numFloor (a : ExactNum) : Int :=
  match decidedFloor a with
  | some k => k
  | none =>
    if h : isIrrational a = true then searchDecided (floorAt a) (floorAt_decides h)
    else Config.freeFloor a

/-- The sign, -1, 0 or 1. -/
def numSign (a : ExactNum) : Int :=
  match decidedSign a with
  | some k => k
  | none =>
    if h : isIrrational a = true then searchDecided (signAt a) (signAt_decides h)
    else Config.freeSign a

/-- `a < b`: the sign of `a - b` is negative. -/
def numLess (a b : ExactNum) : Bool := decide (numSign (numSub a b) < 0)

/-- The machine's instance of `NUM` (R11). -/
def numExact : NumSys ExactNum where
  ofInt := numOfInt
  ofRat := numOfRat
  pi := numPi
  twoPi := numTwoPi
  add := numAdd
  sub := numSub
  mul := numMul
  div := numDiv
  lt := numLess
  ge a b := !numLess a b
  gt a b := numLess b a
  sin := numSin
  floor := numFloor

end Sys2Proof.Machine
end

