-- ==== Sys2Proof/Syntax.lean ====
section
/-! DEFINITION. The command set, version 1: the ten commands of R71 and R72, one constructor for each row of
spec/opcode_table.json, and the source lines of the assembler syntax of R83 and R84. -/

namespace Sys2Proof

/-- The waveform modes, in the order of the document (R21, R73). -/
inductive Mode where
  | sine
  | square
  | saw
  | triangle
deriving DecidableEq, Repr

/-- The correction kernels (R27, R74). -/
inductive Kernel where
  | narrow
  | wide
deriving DecidableEq, Repr

/-- The quantizer policies (R28, R75). -/
inductive QPolicy where
  | round
  | dither
deriving DecidableEq, Repr

/-- The ten commands.  Every operand has exactly the width of its payload field (R71), so every value of every
operand is one the field can hold (R81). -/
inductive Instr where
  /-- NOP, R101 -/
  | nop
  /-- RESET, R102 -/
  | reset
  /-- LDRATE, R103 -/
  | ldrate (rate : RateWord)
  /-- LDFREQ, R104 -/
  | ldfreq (freq : FreqWord)
  /-- INIT, R105 -/
  | init (mode : Mode)
  /-- SETMODE, R106 -/
  | setmode (mode : Mode)
  /-- SETKERN, R107 -/
  | setkern (kern : Kernel)
  /-- SETQ, R108 -/
  | setq (qpol : QPolicy)
  /-- SEED, R109 -/
  | seed (seed : SeedWord)
  /-- FILL, R180 -/
  | fill (count : CountWord)
deriving DecidableEq, Repr

/-- One line of assembler source with its operands read but not checked (R83), and the pseudo-instruction CONFIG
(R84).  A frequency is a decimal number of Hz, so a rational. -/
inductive AsmLine where
  | nop
  | reset
  | ldrate (r : Nat)
  | ldfreq (f : Rat)
  | init (m : Mode)
  | setmode (m : Mode)
  | setkern (k : Kernel)
  | setq (q : QPolicy)
  | seed (s : Nat)
  | fill (n : Nat)
  | config (r : Nat) (f : Rat) (m : Mode)
deriving DecidableEq, Repr

end Sys2Proof
end

