-- ==== Sys2Proof/Machine/PolyBlep.lean ====
section
/-! DEFINITION. The polyBLEP corrector (spec/42_polyblep.md): two kernels, one selected by `KERNEL`. -/

namespace Sys2Proof.Machine

/-- The literal `0.5` of the rules (R11). -/
def half {α : Type} (N : NumSys α) : α := N.ofRat (mkRat 1 2)

/-- `t = PHASE / TWO_PI` and, of the step, `dt = PHASE_STEP / TWO_PI` (R131). -/
def turns {α : Type} (N : NumSys α) (a : α) : α := N.div a N.twoPi

/-- The narrow kernel (R132), in its expanded form, left to right. -/
def polyblepNarrow {α : Type} (N : NumSys α) (t dt : α) : α :=
  if N.ge t (N.ofInt 0) && N.lt t dt then
    let x := N.div t dt
    N.sub (N.sub (N.mul (N.ofInt 2) x) (N.mul x x)) (N.ofInt 1)
  else if N.gt t (N.sub (N.ofInt 1) dt) then
    let x := N.div (N.sub t (N.ofInt 1)) dt
    N.add (N.add (N.mul x x) (N.mul (N.ofInt 2) x)) (N.ofInt 1)
  else N.ofInt 0

/-- The wide kernel (R133): the same windows, every coefficient halved. -/
def polyblepWide {α : Type} (N : NumSys α) (t dt : α) : α :=
  if N.ge t (N.ofInt 0) && N.lt t dt then
    let x := N.div t dt
    N.sub (N.sub x (N.mul (half N) (N.mul x x))) (half N)
  else if N.gt t (N.sub (N.ofInt 1) dt) then
    let x := N.div (N.sub t (N.ofInt 1)) dt
    N.add (N.add (N.mul (half N) (N.mul x x)) x) (half N)
  else N.ofInt 0

/-- Selection (R134). -/
def polyblep {α : Type} (N : NumSys α) (kernel : Kernel) (t dt : α) : α :=
  match kernel with
  | .narrow => polyblepNarrow N t dt
  | .wide => polyblepWide N t dt

end Sys2Proof.Machine
end

