-- ==== Sys2Proof/Machine/Quantizer.lean ====
section
/-! DEFINITION. The 16-bit quantizer and the random source (spec/44_quantizer.md). -/

namespace Sys2Proof.Machine

/-- `clamp(lo, hi, v)` (R10). -/
def clamp (lo hi v : Int) : Int := if v < lo then lo else if hi < v then hi else v

/-- The end of both policies: `clamp(-32768, 32767, u - 32768)` (R163). -/
def sampleCode (u : Int) : Int := clamp (-32768) 32767 (u - 32768)

/-- `(f + 1) * 32767.5` (R161, R162). -/
def scaled {α : Type} (N : NumSys α) (f : α) : α :=
  N.mul (N.add f (N.ofInt 1)) (N.ofRat (mkRat 65535 2))

/-- What the floor of Round is taken of. -/
def roundArg {α : Type} (N : NumSys α) (f : α) : α := N.add (scaled N f) (half N)

/-- What the floor of Dither is taken of, for the draw `r`. -/
def ditherArg {α : Type} (N : NumSys α) (f : α) (r : Rat) : α := N.add (scaled N f) (N.ofRat r)

/-- `quantize_round` (R161). -/
def quantizeRound {α : Type} (N : NumSys α) (f : α) : Int := sampleCode (N.floor (roundArg N f))

/-- `quantize_dither` (R162), for the draw `r`. -/
def quantizeDither {α : Type} (N : NumSys α) (f : α) (r : Rat) : Int := sampleCode (N.floor (ditherArg N f r))

/-- The next state of `XS32` (R166). -/
def xs32Next (s0 : SeedWord) : SeedWord :=
  let s1 := s0 ^^^ (s0 <<< 13)
  let s2 := s1 ^^^ (s1 >>> 17)
  s2 ^^^ (s2 <<< 5)

/-- The draw of a state: its top 24 bits as a fraction (R166). -/
def xs32Draw (s : SeedWord) : Rat := mkRat ((s.toNat / 2 ^ 8 : Nat) : Int) (2 ^ 24)

/-- `XS32` (R166), the value R7 gives `RNG_FN`: the state after a draw, and the draw. -/
def rngFn (s : SeedWord) : SeedWord × Rat := (xs32Next s, xs32Draw (xs32Next s))

/-- `quantize` (R164) and the `RNG` it leaves, for the generator `G`: advanced once under Dither, untouched under
Round (R167). -/
def quantize {α : Type} (N : NumSys α) (G : SeedWord → SeedWord × Rat) (qpolicy : QPolicy) (f : α) (rng : SeedWord) :
    Int × SeedWord :=
  match qpolicy with
  | .round => (quantizeRound N f, rng)
  | .dither => (quantizeDither N f (G rng).2, (G rng).1)

end Sys2Proof.Machine
end

