-- ==== Sys2Proof/Machine/Chip.lean ====
section
/-! DEFINITION. The parameters of the machine that `Sys2Proof.core` is. -/

namespace Sys2Proof.Machine

/-- The values of the OPEN parameters of R7 in the machine: for `NUM` the reference instance `NUM_REAL`, carried as
plain data (log entry 1), and for `RNG_FN` the generator `XS32` (log entry 4). -/
def chip : Params ExactNum := { num := numExact, rng := rngFn }

end Sys2Proof.Machine
end

