-- ==== Sys2Proof/WellFormed.lean ====
section
/-! DEFINITION. What is well formed: a command word (R71, R81), a command, and a line of assembler source (R83). -/

namespace Sys2Proof

/-- `op`, bits 63:56 (R70). -/
def opField (w : CommandWord) : BitVec 8 := w.extractLsb' 56 8

/-- `arg`, bits 55:0 (R70). -/
def argField (w : CommandWord) : Payload := w.extractLsb' 0 56

/-- The number of payload bits that are not reserved, per opcode (R71); `none` for an opcode that is not used
(R72). -/
def payloadWidth (op : BitVec 8) : Option Nat :=
  match op.toNat with
  | 0 => some 0
  | 1 => some 0
  | 2 => some 32
  | 3 => some 48
  | 4 => some 2
  | 5 => some 2
  | 6 => some 1
  | 7 => some 1
  | 8 => some 32
  | 9 => some 32
  | _ => none

/-- A word is legal when its opcode is used and every reserved bit is 0 (R81). -/
def CommandWord.wellFormed (w : CommandWord) : Bool :=
  match payloadWidth (opField w) with
  | some n => decide ((argField w).toNat < 2 ^ n)
  | none => false

/-- Every command is well formed: its operands' types are the payload fields themselves, and no field value is
illegal by itself (R81). -/
def Instr.wellFormed : Instr → Bool
  | .nop => true
  | .reset => true
  | .ldrate rate => decide (rate.toNat < 2 ^ 32)
  | .ldfreq freq => decide (freq.toNat < 2 ^ 48)
  | .init _ => true
  | .setmode _ => true
  | .setkern _ => true
  | .setq _ => true
  | .seed s => decide (s.toNat < 2 ^ 32)
  | .fill count => decide (count.toNat < 2 ^ 32)

/-- `0 <= f < 4294967296`, with `f * 65536` an integer (R83). -/
def asmFrequencyOk (f : Rat) : Bool :=
  decide (0 ≤ f.num) && decide (f.num < 4294967296 * (f.den : Int)) && 65536 % f.den == 0

/-- The operand ranges of R83: the assembler refuses an operand outside its range and never rounds. -/
def AsmLine.wellFormed : AsmLine → Bool
  | .nop => true
  | .reset => true
  | .ldrate r => decide (r ≤ 4294967295)
  | .ldfreq f => asmFrequencyOk f
  | .init _ => true
  | .setmode _ => true
  | .setkern _ => true
  | .setq _ => true
  | .seed s => decide (s ≤ 4294967295)
  | .fill n => decide (n ≤ 4294967295)
  | .config r f _ => decide (r ≤ 4294967295) && asmFrequencyOk f

end Sys2Proof
end

