-- ==== Sys2Proof/Decode.lean ====
section
/-! DEFINITION. The decoder of R80, total on every word and on every byte string, and its inverse the encoder. -/

namespace Sys2Proof

/-- Why a word, or a byte string, is no command.  The first two are the outcome `Illegal` of R80; the third is no
word at all. -/
inductive Illegal where
  /-- the opcode is in `0x0A` to `0xFF` (R81) -/
  | unusedOpcode
  /-- the opcode is used and a reserved payload bit is 1 (R81) -/
  | reservedBit
  /-- fewer than eight bytes are left of a byte stream (R56) -/
  | truncated
deriving DecidableEq, Repr

/-! ### The codes of R73, R74 and R75 -/

def modeCode : Mode → BitVec 2
  | .sine => 0#2
  | .square => 1#2
  | .saw => 2#2
  | .triangle => 3#2

def modeOfCode (c : BitVec 2) : Mode :=
  if c = 0#2 then .sine
  else if c = 1#2 then .square
  else if c = 2#2 then .saw
  else .triangle

def kernelCode : Kernel → BitVec 1
  | .narrow => 0#1
  | .wide => 1#1

def kernelOfCode (c : BitVec 1) : Kernel :=
  if c = 0#1 then .narrow else .wide

def qpolicyCode : QPolicy → BitVec 1
  | .round => 0#1
  | .dither => 1#1

def qpolicyOfCode (c : BitVec 1) : QPolicy :=
  if c = 0#1 then .round else .dither

/-! ### The decoder -/

/-- A payload whose bits from `n` up must be 0 (R71). -/
def withPayload (n : Nat) (arg : Payload) (i : Instr) : Except Illegal Instr :=
  if arg.toNat < 2 ^ n then .ok i else .error .reservedBit

/-- R80. -/
def decode (w : CommandWord) : Except Illegal Instr :=
  let op := opField w
  let arg := argField w
  if op = 0x00#8 then withPayload 0 arg .nop
  else if op = 0x01#8 then withPayload 0 arg .reset
  else if op = 0x02#8 then withPayload 32 arg (.ldrate (arg.extractLsb' 0 32))
  else if op = 0x03#8 then withPayload 48 arg (.ldfreq (arg.extractLsb' 0 48))
  else if op = 0x04#8 then withPayload 2 arg (.init (modeOfCode (arg.extractLsb' 0 2)))
  else if op = 0x05#8 then withPayload 2 arg (.setmode (modeOfCode (arg.extractLsb' 0 2)))
  else if op = 0x06#8 then withPayload 1 arg (.setkern (kernelOfCode (arg.extractLsb' 0 1)))
  else if op = 0x07#8 then withPayload 1 arg (.setq (qpolicyOfCode (arg.extractLsb' 0 1)))
  else if op = 0x08#8 then withPayload 32 arg (.seed (arg.extractLsb' 0 32))
  else if op = 0x09#8 then withPayload 32 arg (.fill (arg.extractLsb' 0 32))
  else .error .unusedOpcode

/-! ### The encoder: the opcode in bits 63:56, the fields in their places, zeros elsewhere (R80) -/

def encodeWord (op : BitVec 8) (arg : Payload) : CommandWord := op ++ arg

def encode : Instr → CommandWord
  | .nop => encodeWord 0x00#8 0#56
  | .reset => encodeWord 0x01#8 0#56
  | .ldrate rate => encodeWord 0x02#8 (rate.setWidth 56)
  | .ldfreq freq => encodeWord 0x03#8 (freq.setWidth 56)
  | .init mode => encodeWord 0x04#8 ((modeCode mode).setWidth 56)
  | .setmode mode => encodeWord 0x05#8 ((modeCode mode).setWidth 56)
  | .setkern kern => encodeWord 0x06#8 ((kernelCode kern).setWidth 56)
  | .setq qpol => encodeWord 0x07#8 ((qpolicyCode qpol).setWidth 56)
  | .seed seed => encodeWord 0x08#8 (seed.setWidth 56)
  | .fill count => encodeWord 0x09#8 (count.setWidth 56)

/-! ### Command words as bytes, least significant byte first (R56) -/

/-- Byte `i` of a word is bits `8i+7:8i`. -/
def wordByte (w : CommandWord) (i : Nat) : Byte := w.extractLsb' (8 * i) 8

def wordBytes (w : CommandWord) : List Byte :=
  [wordByte w 0, wordByte w 1, wordByte w 2, wordByte w 3, wordByte w 4, wordByte w 5, wordByte w 6, wordByte w 7]

/-- The word of eight bytes, the first the least significant. -/
def wordOfBytes (b0 b1 b2 b3 b4 b5 b6 b7 : Byte) : CommandWord :=
  b7 ++ b6 ++ b5 ++ b4 ++ b3 ++ b2 ++ b1 ++ b0

/-- The first command of a byte stream and the bytes after it. -/
def decodeBytes : List Byte → Except Illegal (Instr × List Byte)
  | b0 :: b1 :: b2 :: b3 :: b4 :: b5 :: b6 :: b7 :: rest =>
    match decode (wordOfBytes b0 b1 b2 b3 b4 b5 b6 b7) with
    | .ok i => .ok (i, rest)
    | .error e => .error e
  | _ => .error .truncated

/-- The command word of the bits `w` that spec/opcode_table.json numbers: `nbits` of them, zeros above. -/
def tableWord (nbits w : Nat) : CommandWord := BitVec.ofNat 64 (w % 2 ^ nbits)

/-- What the decoder reads from the table's bits, laid out as a byte stream (R56); no instruction is longer than 64
bits. -/
def decodeTableWord (nbits w : Nat) : Option Instr :=
  if nbits ≤ 64 then
    match decodeBytes (wordBytes (tableWord nbits w)) with
    | .ok (i, _) => some i
    | .error _ => none
  else none

end Sys2Proof
end

