-- ==== Sys2Proof/Machine/State.lean ====
section
/-! DEFINITION. The state of one PSOSC instance (R20), its reset value (R41) and the reasons a step can stop. -/

namespace Sys2Proof.Machine

/-- The error codes of R33 and R201; codes 7 to 15 are never written, so they are no value. -/
inductive ErrCode where
  /-- 0, no error since reset -/
  | none
  /-- 1 -/
  | illegalCmd
  /-- 2 -/
  | notConfigured
  /-- 3 -/
  | alreadyConfigured
  /-- 4 -/
  | badRate
  /-- 5 -/
  | unsupportedFreq
  /-- 6 -/
  | noSeed
deriving DecidableEq, Repr

/-- The fourteen stored elements of R20 (`STATUS` is a view, `Machine.status`), and after them the two inputs of the
machine: what the host has put on the command port and on the reset input.  The three real values are of the carrier
`Num` of the parameter `NUM` (R11, R38); `State` alone is the state of the machine, whose carrier is `ExactNum`. -/
structure State (Num : Type := ExactNum) where
  /-- `MODE` (R21) -/
  mode : Mode
  /-- `SAMPLE_RATE`, Hz (R22) -/
  sampleRate : RateWord
  /-- `FREQ_RAW`, units of 1/65536 Hz (R23) -/
  freqRaw : FreqWord
  /-- `PHASE`, radians (R24) -/
  phase : Num
  /-- `PHASE_STEP`, radians per sample (R25) -/
  phaseStep : Num
  /-- `PREV_OUT` (R26) -/
  prevOut : Num
  /-- `KERNEL` (R27) -/
  kernel : Kernel
  /-- `QPOLICY` (R28) -/
  qpolicy : QPolicy
  /-- `RNG` (R29) -/
  rng : SeedWord
  /-- `REMAIN`, the samples the FILL in progress still owes (R30) -/
  remain : CountWord
  /-- `CONFIGURED` (R31) -/
  configured : Bool
  /-- `SEEDED` (R32) -/
  seeded : Bool
  /-- `ERR` (R33) -/
  err : ErrCode
  /-- `OUT`, the samples produced since reset, oldest first (R35) -/
  out : List Sample
  /-- MODEL'S OWN (log entry 5): the words the host presents on the port `CMD`, in order, not yet taken (R51) -/
  cmd : List CommandWord
  /-- MODEL'S OWN (log entry 6): the level of the input `RST` at each coming step; not asserted after the last (R220) -/
  rst : List Bool
deriving DecidableEq, Repr

/-- The machine never stops with a fault: an error of R201 is a next state with `ERR` set (R203, R204), so this type
has no constructor.  Nothing raises it; safe (log entry 9). -/
inductive Fault where
deriving DecidableEq, Repr

/-- Why a step is refused. -/
inductive Refusal where
  /-- An instruction that has no meaning yet: raised by `exec` alone, in an arm that names it.  Safe. -/
  | notModelled (mnemonic : String)
  /-- A sample step in a state whose phase is not in `[0, 2π)` or whose step is not in `(0, π)`: R126 gives `advance`,
  and R137 the corrector, no meaning there and asks the model to refuse (U1, U7).  Raised by `sampleStep`; no run
  from reset reaches it.  Safe (log entry 7). -/
  | phaseOutsidePrecondition
deriving DecidableEq, Repr

/-- The value of every element right after reset (R41, R221), with nothing presented on the inputs; `zero` is the 0 of
the number system. -/
def State.resetTo {α : Type} (zero : α) : State α where
  mode := .sine
  sampleRate := 0#32
  freqRaw := 0#48
  phase := zero
  phaseStep := zero
  prevOut := zero
  kernel := .narrow
  qpolicy := .round
  rng := 0#32
  remain := 0#32
  configured := false
  seeded := false
  err := .none
  out := []
  cmd := []
  rst := []

/-- The machine right after reset. -/
def State.reset : State := State.resetTo (.poly [])

end Sys2Proof.Machine
end

