-- ==== Sys2Proof/Machine/Flags.lean ====
section
/-! DEFINITION. The flags (R31 to R33) and the status word (R34).  PSOSC has no arithmetic flags (R33). -/

namespace Sys2Proof.Machine

/-- The 4-bit code of an error (R33, R201). -/
def errCode : ErrCode → BitVec 4
  | .none => 0#4
  | .illegalCmd => 1#4
  | .notConfigured => 2#4
  | .alreadyConfigured => 3#4
  | .badRate => 4#4
  | .unsupportedFreq => 5#4
  | .noSeed => 6#4

/-- `REMAIN != 0` (R30). -/
def busy {α : Type} (s : State α) : Bool := s.remain != 0#32

/-- `ERR != 0` (R33). -/
def faulted {α : Type} (s : State α) : Bool := s.err != .none

def bit (b : Bool) : BitVec 1 := if b then 1#1 else 0#1

/-- `STATUS` (R34), the fields from bit 31 down to bit 0: a pure view, read at any time without effect (R53). -/
def status {α : Type} (s : State α) : StatusWord :=
  0#20 ++ errCode s.err ++ bit (faulted s) ++ bit (busy s) ++ bit s.seeded ++ bit s.configured
    ++ qpolicyCode s.qpolicy ++ kernelCode s.kernel ++ modeCode s.mode

end Sys2Proof.Machine
end

