-- ==== Sys2Proof/Machine/Ops.lean ====
section
/-! DEFINITION. The named operations the meanings share: raising an error, the faulted state, reset, and the output
stream.  There is no addressable memory (R50). -/

namespace Sys2Proof.Machine

/-- The outcomes of a step. -/
abbrev Result (α : Type := ExactNum) := Host.Outcome (State α) Fault Refusal

/-- Taking an exception, `raise E`: `ERR <- c` and nothing else (R203). -/
def raise {α : Type} (e : ErrCode) (s : State α) : Result α := .next { s with err := e }

/-- A faulted core consumes a command and ignores it (R204); an unfaulted one performs it. -/
def unlessFaulted {α : Type} (perform : State α → Result α) (s : State α) : Result α :=
  if s.err = .none then perform s else .next s

/-- Reset, the one way out of the faulted state (R102, R205, R220): every element of R20 at its reset value.  What
the host presents on the two inputs is not touched. -/
def doReset {α : Type} (P : Params α) (s : State α) : State α :=
  { State.resetTo (P.num.ofInt 0) with cmd := s.cmd, rst := s.rst }

/-- `OutWrite(s)`: append the sample to `OUT` (R52). -/
def outWrite {α : Type} (q : Int) (s : State α) : State α := { s with out := s.out ++ [BitVec.ofInt 16 q] }

/-- The two bytes of a sample, least significant first (R55). -/
def sampleBytes (w : Sample) : List Byte := [w.extractLsb' 0 8, w.extractLsb' 8 8]

/-- The serialised output stream (R55): sample `k` is bytes `2k` and `2k+1`. -/
def outBytes {α : Type} (s : State α) : List Byte := s.out.flatMap sampleBytes

end Sys2Proof.Machine
end

