-- ==== Sys2Proof/Machine/Operands.lean ====
section
/-! DEFINITION. What the operands mean: the payload fields are unsigned integers, used without scaling except the
frequency, which counts units of 1/65536 Hz (R76 to R79). -/

namespace Sys2Proof.Machine

/-- `FREQ = FREQ_RAW / 65536` Hz (R23, R77). -/
def freqHz (f : FreqWord) : Rat := mkRat (f.toNat : Int) 65536

/-- The frequency is at or above half the rate: `2 * FREQ_RAW >= SAMPLE_RATE * 65536` on unbounded integers
(R77, R105). -/
def atOrAboveNyquist (f : FreqWord) (r : RateWord) : Bool := decide (r.toNat * 65536 ≤ 2 * f.toNat)

end Sys2Proof.Machine
end

