-- ==== Sys2Proof/Machine/Phase.lean ====
section
/-! DEFINITION. The phase accumulator (spec/41_phase_accumulator.md). -/

namespace Sys2Proof.Machine

/-- `phase_step` (R121): `(TWO_PI * f) / fs`, the product first. -/
def phaseStepOf {α : Type} (N : NumSys α) (freqRaw : FreqWord) (sampleRate : RateWord) : α :=
  let f := N.ofRat (freqHz freqRaw)
  let fs := N.ofInt (sampleRate.toNat : Int)
  N.div (N.mul N.twoPi f) fs

/-- The precondition of `advance`, with the bound INIT puts on the step: `0 <= phase < 2π`, `0 < step < π` (R110,
R122).  The corrector's, `0 < dt < 0.5`, is the same bound on the step (R131, R137). -/
def phaseInRange {α : Type} (N : NumSys α) (phase step : α) : Bool :=
  N.ge phase (N.ofInt 0) && N.lt phase N.twoPi && N.lt (N.ofInt 0) step && N.lt step N.pi

/-- The loop of R123, at most `fuel` times round: subtract `2π` while the value is at or above it. -/
def wrapLoop {α : Type} (N : NumSys α) : Nat → α → α
  | 0, p => p
  | fuel + 1, p => if N.ge p N.twoPi then wrapLoop N fuel (N.sub p N.twoPi) else p

/-- `advance` (R123), in the form without a loop that R124 gives: wherever `advance` is called, at most one
subtraction happens.  DEDUCED, log entry 8. -/
def advance {α : Type} (N : NumSys α) (phase step : α) : α :=
  let p := N.add phase step
  if N.ge p N.twoPi then N.sub p N.twoPi else p

end Sys2Proof.Machine
end

