-- ==== Sys2Proof/Machine/Configuration.lean ====
section
/-! DEFINITION. The nine commands that produce no samples (spec/40_config_commands.md).  Each is performed on an
idle core (R100) and ignored by a faulted one, RESET apart (R204). -/

namespace Sys2Proof.Machine

/-- NOP (R101). -/
def execNop {α : Type} (s : State α) : Result α := .next s

/-- RESET (R102), the one command a faulted core performs. -/
def execResetOf {α : Type} (P : Params α) (s : State α) : Result α := .next (doReset P s)

/-- RESET on the machine. -/
def execReset (s : State) : Result := execResetOf chip s

/-- LDRATE (R103). -/
def execLdrate {α : Type} (rate : RateWord) (s : State α) : Result α :=
  unlessFaulted (fun s =>
    if s.configured = true then raise .alreadyConfigured s
    else .next { s with sampleRate := rate }) s

/-- LDFREQ (R104). -/
def execLdfreq {α : Type} (freq : FreqWord) (s : State α) : Result α :=
  unlessFaulted (fun s =>
    if s.configured = true then raise .alreadyConfigured s
    else .next { s with freqRaw := freq }) s

/-- The state INIT creates: phase and previous output 0, the step computed, the options kept (R105). -/
def createOscillator {α : Type} (P : Params α) (mode : Mode) (s : State α) : State α :=
  { s with
    mode := mode
    phaseStep := phaseStepOf P.num s.freqRaw s.sampleRate
    phase := P.num.ofInt 0
    prevOut := P.num.ofInt 0
    configured := true }

/-- INIT (R105): four tests in the order written, then the state is created. -/
def execInitOf {α : Type} (P : Params α) (mode : Mode) (s : State α) : Result α :=
  unlessFaulted (fun s =>
    if s.configured = true then raise .alreadyConfigured s
    else if s.sampleRate = 0#32 then raise .badRate s
    else if s.freqRaw = 0#48 then raise .unsupportedFreq s
    else if atOrAboveNyquist s.freqRaw s.sampleRate = true then raise .unsupportedFreq s
    else .next (createOscillator P mode s)) s

/-- INIT on the machine. -/
def execInit (mode : Mode) (s : State) : Result := execInitOf chip mode s

/-- SETMODE (R106). -/
def execSetmode {α : Type} (mode : Mode) (s : State α) : Result α :=
  unlessFaulted (fun s =>
    if s.configured = false then raise .notConfigured s
    else .next { s with mode := mode }) s

/-- SETKERN (R107). -/
def execSetkern {α : Type} (kern : Kernel) (s : State α) : Result α :=
  unlessFaulted (fun s => .next { s with kernel := kern }) s

/-- SETQ (R108). -/
def execSetq {α : Type} (qpol : QPolicy) (s : State α) : Result α :=
  unlessFaulted (fun s => .next { s with qpolicy := qpol }) s

/-- SEED (R109). -/
def execSeed {α : Type} (seed : SeedWord) (s : State α) : Result α :=
  unlessFaulted (fun s => .next { s with rng := seed, seeded := true }) s

end Sys2Proof.Machine
end

