-- ==== Sys2Proof/Machine/Generators.lean ====
section
/-! DEFINITION. The four waveform generators (spec/43_generators.md): functions of `PHASE` before the advance of the
sample (R140), `PHASE_STEP`, `PREV_OUT` and `KERNEL`. -/

namespace Sys2Proof.Machine

/-- `gen_sine` (R141). -/
def genSine {α : Type} (N : NumSys α) (phase : α) : α := N.sin phase

/-- `mod(t + 0.5, 1)` by one conditional subtraction (R142). -/
def halfTurnOn {α : Type} (N : NumSys α) (t : α) : α :=
  let s := N.add t (half N)
  if N.ge s (N.ofInt 1) then N.sub s (N.ofInt 1) else s

/-- The naive square: `1` if `PHASE < PI` else `-1` (R142). -/
def naiveSquare {α : Type} (N : NumSys α) (phase : α) : α :=
  if N.lt phase N.pi then N.ofInt 1 else N.ofInt (-1)

/-- `gen_square` (R142): the rising-edge correction added first, the falling-edge one subtracted second. -/
def genSquare {α : Type} (N : NumSys α) (kernel : Kernel) (phase step : α) : α :=
  let t := turns N phase
  let dt := turns N step
  let t2 := halfTurnOn N t
  N.sub (N.add (naiveSquare N phase) (polyblep N kernel t dt)) (polyblep N kernel t2 dt)

/-- `gen_saw` (R143). -/
def genSaw {α : Type} (N : NumSys α) (kernel : Kernel) (phase step : α) : α :=
  let t := turns N phase
  let dt := turns N step
  N.sub (N.sub (N.div phase N.pi) (N.ofInt 1)) (polyblep N kernel t dt)

/-- `gen_triangle` (R144): the corrected square through the leaky integrator, whose coefficient is `PHASE_STEP` in
radians per sample.  Its value is also the new `PREV_OUT`. -/
def genTriangle {α : Type} (N : NumSys α) (kernel : Kernel) (phase step prevOut : α) : α :=
  let sq := genSquare N kernel phase step
  N.add (N.mul step sq) (N.mul (N.sub (N.ofInt 1) step) prevOut)

/-- `generate` (R145): the value of the generator `MODE` selects. -/
def generate {α : Type} (N : NumSys α) (mode : Mode) (kernel : Kernel) (phase step prevOut : α) : α :=
  match mode with
  | .sine => genSine N phase
  | .square => genSquare N kernel phase step
  | .saw => genSaw N kernel phase step
  | .triangle => genTriangle N kernel phase step prevOut

/-- What a sample leaves in `PREV_OUT`: the new value in Triangle mode, the old one in every other (R144, R146). -/
def prevOutAfter {α : Type} (mode : Mode) (f prevOut : α) : α :=
  match mode with
  | .sine => prevOut
  | .square => prevOut
  | .saw => prevOut
  | .triangle => f

end Sys2Proof.Machine
end

