-- ==== Sys2Proof/Machine/Fill.lean ====
section
/-! DEFINITION. FILL and the sample step (spec/45_fill.md). -/

namespace Sys2Proof.Machine

/-- What one sample makes of the registers it reads: the sample, and the new `PHASE`, `PREV_OUT` and `RNG`. -/
structure SampleResult (α : Type) where
  code : Int
  phase : α
  prevOut : α
  rng : SeedWord
deriving DecidableEq, Repr

/-- The datapath of the sample step (R181), in the order of the rule: generate, quantize, advance.  The number system
and the random generator are its arguments (R11, R38, R166). -/
def samplePath {α : Type} (N : NumSys α) (G : SeedWord → SeedWord × Rat) (mode : Mode) (kernel : Kernel)
    (qpolicy : QPolicy) (phase step prevOut : α) (rng : SeedWord) : SampleResult α :=
  let f := generate N mode kernel phase step prevOut
  let q := quantize N G qpolicy f rng
  { code := q.1, phase := advance N phase step, prevOut := prevOutAfter mode f prevOut, rng := q.2 }

/-- The datapath on the registers of a state. -/
def samplePathOf {α : Type} (P : Params α) (s : State α) : SampleResult α :=
  samplePath P.num P.rng s.mode s.kernel s.qpolicy s.phase s.phaseStep s.prevOut s.rng

/-- One turn of the loop of R182: a sample is produced and the phase advanced; `REMAIN` is not touched. -/
def produceSample {α : Type} (P : Params α) (s : State α) : State α :=
  let r := samplePathOf P s
  { outWrite r.code s with phase := r.phase, prevOut := r.prevOut, rng := r.rng }

/-- The sample step (R181), taken while `REMAIN > 0`.  It never raises.  Where the precondition of the phase
accumulator does not hold it refuses (R126). -/
def sampleStep {α : Type} (P : Params α) (s : State α) : Result α :=
  if phaseInRange P.num s.phase s.phaseStep then
    .next { produceSample P s with remain := s.remain - 1#32 }
  else .refused .phaseOutsidePrecondition

/-- FILL as one big step (R182): `count` samples, then `REMAIN <- 0`. -/
def produceSamples {α : Type} (P : Params α) : Nat → State α → State α
  | 0, s => s
  | n + 1, s => produceSamples P n (produceSample P s)

def fillWhole {α : Type} (P : Params α) (count : CountWord) (s : State α) : State α :=
  { produceSamples P count.toNat s with remain := 0#32 }

/-- FILL (R180): the command step.  The samples are made by the sample steps that follow. -/
def execFill {α : Type} (count : CountWord) (s : State α) : Result α :=
  unlessFaulted (fun s =>
    if s.configured = false then raise .notConfigured s
    else if s.qpolicy = .dither ∧ s.seeded = false then raise .noSeed s
    else .next { s with remain := count }) s

end Sys2Proof.Machine
end

