-- ==== Sys2Proof/Machine/Dispatch.lean ====
section
/-! DEFINITION. One command performed on an idle core: the match of R100, one arm per constructor. -/

namespace Sys2Proof.Machine

def exec (i : Instr) (s : State) : Host.Outcome State Fault Refusal :=
  match i with
  | .nop => Sys2Proof.Machine.execNop s
  | .reset => Sys2Proof.Machine.execReset s
  | .ldrate rate => Sys2Proof.Machine.execLdrate rate s
  | .ldfreq freq => Sys2Proof.Machine.execLdfreq freq s
  | .init mode => Sys2Proof.Machine.execInit mode s
  | .setmode mode => Sys2Proof.Machine.execSetmode mode s
  | .setkern kern => Sys2Proof.Machine.execSetkern kern s
  | .setq qpol => Sys2Proof.Machine.execSetq qpol s
  | .seed seed => Sys2Proof.Machine.execSeed seed s
  | .fill count => Sys2Proof.Machine.execFill count s

end Sys2Proof.Machine
end

