-- ==== Sys2Proof/Machine/Ports.lean ====
section
/-! DEFINITION. What a step does at the ports: the command port takes a word only when the core is idle (R51, R100),
a busy core makes its next sample (R181), and the reset input strikes at any step (R220).  `run` performs one
command: for the machine it is `exec` of Machine/Dispatch.lean, for other parameters `execOf` below. -/

namespace Sys2Proof.Machine

/-- `command(w)` (R100).  The faulted test comes first (R202): every meaning but RESET's begins with it, and so does
the illegal word's. -/
def command {α : Type} (run : Instr → State α → Result α) (w : CommandWord) (s : State α) : Result α :=
  match decode w with
  | .ok i => run i s
  | .error _ => unlessFaulted (raise .illegalCmd) s

/-- One step of the core with `RST` not asserted: a sample step while busy, else the next word if the host presents
one, else nothing (an idle core waits and keeps its state, R210). -/
def coreStep {α : Type} (P : Params α) (run : Instr → State α → Result α) (s : State α) : Result α :=
  if s.remain = 0#32 then
    match s.cmd with
    | [] => .next s
    | w :: rest => command run w { s with cmd := rest }
  else sampleStep P s

/-- One step with the input `RST` sampled first.  Asserted, it resets the core whatever it is doing; the words that
wait at the port stay there (R220). -/
def portStep {α : Type} (P : Params α) (run : Instr → State α → Result α) (s : State α) : Result α :=
  match s.rst with
  | [] => coreStep P run s
  | true :: rest => .next (doReset P { s with rst := rest })
  | false :: rest => coreStep P run { s with rst := rest }

/-! ### The machine for every value of the parameters -/

/-- The match of R100 for the parameters `P`; for the machine's own it is `exec` (`exec_eq`, Laws/Ops.lean). -/
def execOf {α : Type} (P : Params α) (i : Instr) (s : State α) : Result α :=
  match i with
  | .nop => execNop s
  | .reset => execResetOf P s
  | .ldrate rate => execLdrate rate s
  | .ldfreq freq => execLdfreq freq s
  | .init mode => execInitOf P mode s
  | .setmode mode => execSetmode mode s
  | .setkern kern => execSetkern kern s
  | .setq qpol => execSetq qpol s
  | .seed seed => execSeed seed s
  | .fill count => execFill count s

/-- One step of the model with its OPEN parameters as an argument (R7, R11). -/
def stepOf {α : Type} (P : Params α) (s : State α) : Result α := portStep P (execOf P) s

/-- The word `w` presented ahead of all others to a core that will take it at once: idle, `RST` not asserted
(log entry 10). -/
def presentWord {α : Type} (w : CommandWord) (s : State α) : State α :=
  { s with remain := 0#32, rst := [], cmd := w :: s.cmd }

end Sys2Proof.Machine
end

