-- ==== Sys2Proof/Machine/Step.lean ====
section
/-! DEFINITION. The step of the machine: a command step, a sample step, an idle step or a reset, each one atomic
step (R230). -/

namespace Sys2Proof.Machine

def step (s : State) : Host.Outcome State Fault Refusal := portStep chip exec s

/-- The state with an instruction of the opcode table presented as the next command word. -/
def State.withFetchWord (s : State) (nbits w : Nat) : State := presentWord (tableWord nbits w) s

end Sys2Proof.Machine
end

