-- ==== Sys2Proof/Machine/Asm.lean ====
section
/-! DEFINITION. The assembler of R83 and the pseudo-instruction of R84: from the text of a command stream to its
words.  Text is a list of characters.  What the rule leaves to the reader of the text (where white space may stand,
the case of hexadecimal digits) is log entry 11. -/

namespace Sys2Proof.Machine

/-- The frequency field of a checked frequency: `f * 65536` (R83). -/
def asmFreqField (f : Rat) : FreqWord := BitVec.ofNat 48 (f.num.toNat * (65536 / f.den))

/-- The commands a line stands for; CONFIG stands for three (R84). -/
def asmExpand : AsmLine → List Instr
  | .nop => [.nop]
  | .reset => [.reset]
  | .ldrate r => [.ldrate (BitVec.ofNat 32 r)]
  | .ldfreq f => [.ldfreq (asmFreqField f)]
  | .init m => [.init m]
  | .setmode m => [.setmode m]
  | .setkern k => [.setkern k]
  | .setq q => [.setq q]
  | .seed s => [.seed (BitVec.ofNat 32 s)]
  | .fill n => [.fill (BitVec.ofNat 32 n)]
  | .config r f m => [.ldrate (BitVec.ofNat 32 r), .ldfreq (asmFreqField f), .init m]

/-- The words of a line; none where the assembler refuses an operand (R83). -/
def assembleLine (l : AsmLine) : Option (List CommandWord) :=
  if l.wellFormed = true then some ((asmExpand l).map encode) else none

/-! ### Reading the text -/

/-- The line without its comment: `;` starts one that runs to the end of the line. -/
def withoutComment : List Char → List Char
  | [] => []
  | c :: cs => if c = ';' then [] else c :: withoutComment cs

/-- The words and commas of a line; `word` is the word being read, backwards. -/
def tokens (word : List Char) : List Char → List (List Char)
  | [] => if word.isEmpty then [] else [word.reverse]
  | c :: cs =>
    if c = ' ' ∨ c = '\t' ∨ c = '\r' then
      if word.isEmpty then tokens [] cs else word.reverse :: tokens [] cs
    else if c = ',' then
      if word.isEmpty then [','] :: tokens [] cs else word.reverse :: [','] :: tokens [] cs
    else tokens (c :: word) cs

def digitValue (base : Nat) (c : Char) : Option Nat :=
  let n := c.toNat
  let v :=
    if 48 ≤ n ∧ n ≤ 57 then some (n - 48)
    else if 65 ≤ n ∧ n ≤ 70 then some (n - 55)
    else if 97 ≤ n ∧ n ≤ 102 then some (n - 87)
    else none
  match v with
  | some k => if k < base then some k else none
  | none => none

def readDigits (base acc : Nat) : List Char → Option Nat
  | [] => some acc
  | c :: cs =>
    match digitValue base c with
    | some v => readDigits base (acc * base + v) cs
    | none => none

/-- A number: decimal, or hexadecimal with `0x` (R83). -/
def readNat : List Char → Option Nat
  | [] => none
  | '0' :: 'x' :: [] => none
  | '0' :: 'x' :: cs => readDigits 16 0 cs
  | cs => readDigits 10 0 cs

/-- The digits before and after the point, if there is one. -/
def splitAtPoint : List Char → List Char × Option (List Char)
  | [] => ([], none)
  | c :: cs =>
    if c = '.' then ([], some cs)
    else
      match splitAtPoint cs with
      | (a, b) => (c :: a, b)

/-- A decimal number of Hz (R83). -/
def readFrequency (cs : List Char) : Option Rat :=
  match splitAtPoint cs with
  | (whole, none) =>
    match readNat whole with
    | some n => some (mkRat (n : Int) 1)
    | none => none
  | (whole, some part) =>
    if whole.isEmpty || part.isEmpty then none
    else
      match readDigits 10 0 (whole ++ part) with
      | some n => some (mkRat (n : Int) (10 ^ part.length))
      | none => none

def readMode (cs : List Char) : Option Mode :=
  if cs = "SINE".toList then some .sine
  else if cs = "SQUARE".toList then some .square
  else if cs = "SAW".toList then some .saw
  else if cs = "TRIANGLE".toList then some .triangle
  else none

def readKernel (cs : List Char) : Option Kernel :=
  if cs = "NARROW".toList then some .narrow
  else if cs = "WIDE".toList then some .wide
  else none

def readQPolicy (cs : List Char) : Option QPolicy :=
  if cs = "ROUND".toList then some .round
  else if cs = "DITHER".toList then some .dither
  else none

/-- A line with one operand. -/
def readOneOperand (name operand : List Char) : Option AsmLine :=
  if name = "LDRATE".toList then (readNat operand).map .ldrate
  else if name = "LDFREQ".toList then (readFrequency operand).map .ldfreq
  else if name = "INIT".toList then (readMode operand).map .init
  else if name = "SETMODE".toList then (readMode operand).map .setmode
  else if name = "SETKERN".toList then (readKernel operand).map .setkern
  else if name = "SETQ".toList then (readQPolicy operand).map .setq
  else if name = "SEED".toList then (readNat operand).map .seed
  else if name = "FILL".toList then (readNat operand).map .fill
  else none

def readConfig (r f m : List Char) : Option AsmLine :=
  match readNat r, readFrequency f, readMode m with
  | some r, some f, some m => some (.config r f m)
  | _, _, _ => none

/-- The words of one line of text; a blank line has none. -/
def assembleTextLine (line : List Char) : Option (List CommandWord) :=
  match tokens [] (withoutComment line) with
  | [] => some []
  | [name] =>
    if name = "NOP".toList then assembleLine .nop
    else if name = "RESET".toList then assembleLine .reset
    else none
  | [name, operand] => (readOneOperand name operand).bind assembleLine
  | [name, r, [','], f, [','], m] =>
    if name = "CONFIG".toList then (readConfig r f m).bind assembleLine else none
  | _ => none

/-- The lines of a text; `line` is the line being read, backwards. -/
def textLines (line : List Char) : List Char → List (List Char)
  | [] => [line.reverse]
  | c :: cs => if c = '\n' then line.reverse :: textLines [] cs else textLines (c :: line) cs

def assembleLines : List (List Char) → Option (List CommandWord)
  | [] => some []
  | l :: ls =>
    match assembleTextLine l, assembleLines ls with
    | some ws, some rest => some (ws ++ rest)
    | _, _ => none

/-- The words of a text, one command per line; none where a line is refused. -/
def assemble (text : List Char) : Option (List CommandWord) := assembleLines (textLines [] text)

end Sys2Proof.Machine
end

