-- ==== Sys2Proof/Safety.lean ====
section
/-! DEFINITION. What counts as a safe state and a safe run, in the terms statements use: the invariant of the machine
(R36 and the facts of R29 to R33 about which states occur), runs of sample steps, and the turns form of R13. -/

namespace Sys2Proof.Machine

/-- A polynomial in π in its one form: no zero at the end. -/
def pNormal : List Rat → Bool
  | [] => true
  | [c] => !qIsZero c
  | _ :: c :: p => pNormal (c :: p)

/-- The frequency and rate that INIT admits: `0 < FREQ < SAMPLE_RATE / 2` (R105). -/
def admitted (freqRaw : FreqWord) (sampleRate : RateWord) : Prop :=
  0 < sampleRate.toNat ∧ 0 < freqRaw.toNat ∧ 2 * freqRaw.toNat < sampleRate.toNat * 65536

/-- What holds of the registers while an OscillatorState exists (R31, R36): the loaded rate and frequency are
admitted, the step is the one INIT computed, the phase is `2π·τ` with `τ` a rational in `[0, 1)` (R13), and the
previous output is a polynomial in π in its one form. -/
def hasOscillator (s : State) : Prop :=
  admitted s.freqRaw s.sampleRate
    ∧ s.phaseStep = phaseStepOf numExact s.freqRaw s.sampleRate
    ∧ (∃ τ : Rat, 0 ≤ τ ∧ τ < 1 ∧ s.phase = numOfPi (2 * τ))
    ∧ (∃ p, s.prevOut = .poly p ∧ pNormal p = true)

/-- What holds before INIT has succeeded: the fields of the OscillatorState have their reset values, nothing is owed
and nothing has been produced. -/
def hasNone (s : State) : Prop :=
  s.mode = .sine ∧ s.phase = .poly [] ∧ s.phaseStep = .poly [] ∧ s.prevOut = .poly [] ∧ s.remain = 0#32 ∧ s.out = []

/-- The invariant of the machine. -/
def MachineInv (s : State) : Prop :=
  (s.configured = true → hasOscillator s)
    ∧ (s.configured = false → hasNone s)
    ∧ (s.remain ≠ 0#32 → s.err = .none ∧ (s.qpolicy = .dither → s.seeded = true))
    ∧ (s.seeded = false → s.rng = 0#32)

/-- `n` sample steps of a core whose reset input stays quiet, while there are samples to make. -/
def sampleSteps {α : Type} (P : Params α) : Nat → State α → Result α
  | 0, s => .next s
  | n + 1, s =>
    match sampleStep P s with
    | .next t => sampleSteps P n t
    | .fault r => .fault r
    | .refused r => .refused r

/-- The phase after `n` advances. -/
def advanceTimes {α : Type} (N : NumSys α) (step : α) : Nat → α → α
  | 0, p => p
  | n + 1, p => advanceTimes N step n (advance N p step)

/-- What the quantizer takes the floor of in the sample step of a state. -/
def floorArgument (s : State) : ExactNum :=
  let f := generate numExact s.mode s.kernel s.phase s.phaseStep s.prevOut
  match s.qpolicy with
  | .round => roundArg numExact f
  | .dither => ditherArg numExact f (rngFn s.rng).2

/-- The state over the real numbers that a state of the machine stands for. -/
noncomputable def realState (s : State) : State ℝ :=
  { s with phase := toReal s.phase, phaseStep := toReal s.phaseStep, prevOut := toReal s.prevOut }

/-- The turns form of R13: angles are counted in turns, so `2π` is 1 and `π` is 1/2, and the rules of the phase, the
corrector, the square and the saw are the same rules over the rationals.  The sine leaves the rationals, so this
instance has none (its `sin` is not used). -/
def numTurns : NumSys Rat where
  ofInt i := mkRat i 1
  ofRat q := q
  pi := mkRat 1 2
  twoPi := 1
  add a b := a + b
  sub a b := a - b
  mul a b := a * b
  div a b := a / b
  lt a b := decide (a < b)
  ge a b := decide (b ≤ a)
  gt a b := decide (b < a)
  sin _ := 0
  floor a := ⌊a⌋

/-! ### The numbers of the tables of the spec, written out for statements -/

def modeNumber : Mode → Nat
  | .sine => 0
  | .square => 1
  | .saw => 2
  | .triangle => 3

def kernelNumber : Kernel → Nat
  | .narrow => 0
  | .wide => 1

def qpolicyNumber : QPolicy → Nat
  | .round => 0
  | .dither => 1

/-- The codes of R201. -/
def errNumber : ErrCode → Nat
  | .none => 0
  | .illegalCmd => 1
  | .notConfigured => 2
  | .alreadyConfigured => 3
  | .badRate => 4
  | .unsupportedFreq => 5
  | .noSeed => 6

/-- The word of a command as a number: its opcode and its field as R71 and R83 give them. -/
def wordNumber : Instr → Nat
  | .nop => 0
  | .reset => 1 * 2 ^ 56
  | .ldrate r => 2 * 2 ^ 56 + r.toNat
  | .ldfreq f => 3 * 2 ^ 56 + f.toNat
  | .init m => 4 * 2 ^ 56 + modeNumber m
  | .setmode m => 5 * 2 ^ 56 + modeNumber m
  | .setkern k => 6 * 2 ^ 56 + kernelNumber k
  | .setq q => 7 * 2 ^ 56 + qpolicyNumber q
  | .seed v => 8 * 2 ^ 56 + v.toNat
  | .fill n => 9 * 2 ^ 56 + n.toNat

/-- The words of a line of assembler source as numbers, operand ranges apart (R83, R84); `f` counts units of
1/65536 Hz. -/
def lineNumbers (f : Nat) : AsmLine → List Nat
  | .nop => [0]
  | .reset => [1 * 2 ^ 56]
  | .ldrate r => [2 * 2 ^ 56 + r]
  | .ldfreq _ => [3 * 2 ^ 56 + f]
  | .init m => [4 * 2 ^ 56 + modeNumber m]
  | .setmode m => [5 * 2 ^ 56 + modeNumber m]
  | .setkern k => [6 * 2 ^ 56 + kernelNumber k]
  | .setq q => [7 * 2 ^ 56 + qpolicyNumber q]
  | .seed v => [8 * 2 ^ 56 + v]
  | .fill n => [9 * 2 ^ 56 + n]
  | .config r _ m => [2 * 2 ^ 56 + r, 3 * 2 ^ 56 + f, 4 * 2 ^ 56 + modeNumber m]

/-- The error a command word raises on an unfaulted core, by the table of R201 and the order of R202. -/
def errorOfWord (w : CommandWord) (s : State) : ErrCode :=
  match decode w with
  | .error _ => .illegalCmd
  | .ok .nop => .none
  | .ok .reset => .none
  | .ok (.ldrate _) => if s.configured = true then .alreadyConfigured else .none
  | .ok (.ldfreq _) => if s.configured = true then .alreadyConfigured else .none
  | .ok (.init _) =>
    if s.configured = true then .alreadyConfigured
    else if s.sampleRate.toNat = 0 then .badRate
    else if s.freqRaw.toNat = 0 ∨ 65536 * s.sampleRate.toNat ≤ 2 * s.freqRaw.toNat then .unsupportedFreq
    else .none
  | .ok (.setmode _) => if s.configured = true then .none else .notConfigured
  | .ok (.setkern _) => .none
  | .ok (.setq _) => .none
  | .ok (.seed _) => .none
  | .ok (.fill _) =>
    if s.configured = false then .notConfigured
    else if s.qpolicy = .dither ∧ s.seeded = false then .noSeed
    else .none

end Sys2Proof.Machine
end

