-- ==== Sys2Proof/Certificates/Slice0/Obligations.lean ====
section
/-! DEFINITION. The statements of this model for the provers. -/

open Sys2Proof Sys2Proof.Machine

/-! ## Encoding -/

/-- Decoding the encoding of any command, with any operands, gives it back (spec/30_encoding.md §4). -/
def Obligations.DecodeInvertsEncode : Prop :=
  ∀ i : Instr, decode (encode i) = .ok i

/-- R71, R80: a word decodes to a command exactly when it is the number the tables give that command: its opcode in
bits 63:56, its field at bit 0, zeros elsewhere.  Hence one word per command, and every other word is `Illegal`. -/
def Obligations.DecodeIsTheCommandTable : Prop :=
  ∀ (w : CommandWord) (i : Instr), decode w = .ok i ↔ w.toNat = wordNumber i

/-- R81: a word is illegal exactly when its opcode is in `0x0A` to `0xFF` or a reserved bit of its payload is 1;
presented to an idle core it sets `ERR` to `ERR_ILLEGAL_CMD` if the core is unfaulted and is ignored if it is
faulted; nothing else changes.  The reset input is quiet, and the step uses up its level where one is still listed
(log entry 6). -/
def Obligations.IllegalWordsRaise : Prop :=
  (∀ w : CommandWord, (∃ e, decode w = .error e) ↔
      0x0A ≤ w.toNat / 2 ^ 56
        ∨ ∃ b, ([0, 0, 32, 48, 2, 2, 1, 1, 32, 32] : List Nat).getD (w.toNat / 2 ^ 56) 56 ≤ b ∧ b < 56
            ∧ w.getLsbD b = true)
    ∧ ∀ (w : CommandWord) (rest : List CommandWord) (s : State), (∃ e, decode w = .error e) →
        s.rst.head? ≠ some true → s.remain = 0#32 → s.cmd = w :: rest →
        (s.err = .none → step s = .next { s with rst := s.rst.tail, cmd := rest, err := .illegalCmd })
          ∧ (s.err ≠ .none → step s = .next { s with rst := s.rst.tail, cmd := rest })

/-- R85: the worked encodings, one per command, and five illegal words. -/
def Obligations.WorkedEncodings : Prop :=
  [0x0000000000000000#64, 0x0100000000000000#64, 0x020000000000AC44#64, 0x0300000001B80000#64,
      0x0400000000000003#64, 0x0500000000000002#64, 0x0600000000000001#64, 0x0700000000000001#64,
      0x0800000000000001#64, 0x0900000000000064#64].map decode
    = [.ok .nop, .ok .reset, .ok (.ldrate 44100#32), .ok (.ldfreq 28835840#48), .ok (.init .triangle),
      .ok (.setmode .saw), .ok (.setkern .wide), .ok (.setq .dither), .ok (.seed 1#32), .ok (.fill 100#32)]
    ∧ ([0x0A00000000000000#64, 0xFFFFFFFFFFFFFFFF#64, 0x0000000000000001#64, 0x0400000000000004#64,
        0x0900000100000000#64].all fun w => (decode w).toOption.isNone) = true

/-- R56: a command word stored as bytes is eight bytes, byte `i` being bits `8i+7:8i`; a byte stream that begins with
a command's word is read as that command and the rest. -/
def Obligations.CommandBytesAreLittleEndian : Prop :=
  (∀ w : CommandWord, (wordBytes w).length = 8
      ∧ ∀ i, i < 8 → ((wordBytes w)[i]?.map BitVec.toNat) = some (w.toNat / 2 ^ (8 * i) % 256))
    ∧ ∀ (i : Instr) (rest : List Byte), decodeBytes (wordBytes (encode i) ++ rest) = .ok (i, rest)

/-- R55: sample `k` of `OUT` is bytes `2k` and `2k+1` of the byte stream, the low byte first. -/
def Obligations.SampleBytesAreLittleEndian : Prop :=
  ∀ s : State, (outBytes s).length = 2 * s.out.length
    ∧ ∀ (k : Nat) (w : Sample), s.out[k]? = some w →
        ((outBytes s)[2 * k]?.map BitVec.toNat) = some (w.toNat % 256)
          ∧ ((outBytes s)[2 * k + 1]?.map BitVec.toNat) = some (w.toNat / 256)

/-- R83, R84: a line whose operands are in range, with the frequency `f` units of 1/65536 Hz where it has one,
assembles to the words of the tables; a number or a frequency out of range, or a frequency that is no multiple of
1/65536 Hz, is refused. -/
def Obligations.AssemblerChecksItsOperands : Prop :=
  (∀ (l : AsmLine) (f : Nat), f < 2 ^ 48 →
      (∀ g, (l = .ldfreq g ∨ ∃ r m, l = .config r g m) → g = (f : Rat) / 65536) →
      (∀ n, (l = .ldrate n ∨ l = .seed n ∨ l = .fill n ∨ ∃ g m, l = .config n g m) → n ≤ 4294967295) →
      (assembleLine l).map (fun ws => ws.map BitVec.toNat) = some (lineNumbers f l))
    ∧ (∀ n : Nat, 4294967295 < n →
        assembleLine (.ldrate n) = none ∧ assembleLine (.seed n) = none ∧ assembleLine (.fill n) = none
          ∧ ∀ g m, assembleLine (.config n g m) = none)
    ∧ ∀ g : Rat, (∀ f : Nat, f < 2 ^ 48 → g ≠ (f : Rat) / 65536) →
        assembleLine (.ldfreq g) = none ∧ ∀ r m, assembleLine (.config r g m) = none

/-! ## The step -/

/-- A step runs the decoded instruction (spec/40_config_commands.md §1): with no sample owed and the reset input
quiet, the step takes the first word presented and is `exec` of its command on the state without that word. -/
def Obligations.StepRunsTheDecodedCommand : Prop :=
  ∀ (s : State) (w : CommandWord) (rest : List CommandWord) (i : Instr),
    s.remain = 0#32 → s.cmd = w :: rest → decode w = .ok i →
      (s.rst = [] → step s = exec i { s with cmd := rest })
        ∧ ∀ rs, s.rst = false :: rs → step s = exec i { s with rst := rs, cmd := rest }

/-- The model's choice, log entry 10: `withFetchWord` makes the very next step run the command whose word it is
given, whatever the state was. -/
def Obligations.FetchWordIsTheNextCommand : Prop :=
  ∀ (s : State) (i : Instr),
    step (s.withFetchWord 64 (encode i).toNat) = exec i { s with remain := 0#32, rst := [] }

/-- R210 and R51 for an idle core with no word presented, the reset input quiet: it waits and keeps all its state, the
level of the reset input apart, which the step uses up where one is still listed (log entry 6).  That an idle step is
a step at all is the model's choice, log entry 5. -/
def Obligations.IdleCoreKeepsItsState : Prop :=
  ∀ s : State, s.rst.head? ≠ some true → s.remain = 0#32 → s.cmd = [] → step s = .next { s with rst := s.rst.tail }

/-- R51, R64, R230 (spec/20_memory.md §1, spec/70_reset_and_hazards.md §4): from any state the invariant allows, with
the reset input quiet at every coming step, a wait at the command port ends: after exactly `REMAIN` steps the core is idle, it has made
that many samples, and the words presented meanwhile are all still there, in order. -/
def Obligations.BusyCoreBecomesIdle : Prop :=
  ∀ s : State, MachineInv s → (∀ b ∈ s.rst, b = false) →
    ∃ t, Sys2Proof.core.run s.remain.toNat s = .next t ∧ t.remain = 0#32 ∧ t.cmd = s.cmd
      ∧ t.out.length = s.out.length + s.remain.toNat
      ∧ ∀ n, n < s.remain.toNat → ∃ u, Sys2Proof.core.run n s = .next u ∧ u.remain ≠ 0#32

/-- R220: the reset input puts every element at its reset value whatever the core is doing, and the words waiting at
the port stay to be taken; the RESET command does so on an idle core, faulted or not.  How the levels of the reset
input are held is the model's choice, log entry 6. -/
def Obligations.BothResetsResetEverything : Prop :=
  (∀ (s : State) (rs : List Bool), s.rst = true :: rs →
      step s = .next { State.reset with cmd := s.cmd, rst := rs })
    ∧ ∀ (s : State) (w : CommandWord) (rest : List CommandWord), decode w = .ok .reset →
        s.rst.head? ≠ some true → s.remain = 0#32 → s.cmd = w :: rest →
        step s = .next { State.reset with cmd := rest, rst := s.rst.tail }

/-- R41, R221: the value of every element right after reset, with the codes and the empty sequence as the table
gives them. -/
def Obligations.ResetValues : Prop :=
  modeNumber State.reset.mode = 0 ∧ State.reset.sampleRate.toNat = 0 ∧ State.reset.freqRaw.toNat = 0
    ∧ toReal State.reset.phase = 0 ∧ toReal State.reset.phaseStep = 0 ∧ toReal State.reset.prevOut = 0
    ∧ kernelNumber State.reset.kernel = 0 ∧ qpolicyNumber State.reset.qpolicy = 0 ∧ State.reset.rng.toNat = 0
    ∧ State.reset.remain.toNat = 0 ∧ State.reset.configured = false ∧ State.reset.seeded = false
    ∧ errNumber State.reset.err = 0 ∧ State.reset.out = [] ∧ status State.reset = 0x00000000#32

/-- R34: the fields of `STATUS`, bit by bit, as one number, whose bits from 12 up are 0; it is 0 after reset. -/
def Obligations.StatusFields : Prop :=
  status State.reset = 0x00000000#32 ∧ ∀ s : State, (status s).toNat
    = modeNumber s.mode + 2 ^ 2 * kernelNumber s.kernel + 2 ^ 3 * qpolicyNumber s.qpolicy
      + 2 ^ 4 * (if s.configured = true then 1 else 0) + 2 ^ 5 * (if s.seeded = true then 1 else 0)
      + 2 ^ 6 * (if s.remain.toNat ≠ 0 then 1 else 0) + 2 ^ 7 * (if errNumber s.err ≠ 0 then 1 else 0)
      + 2 ^ 8 * errNumber s.err

/-- R53 (its last sentence): a sample step changes no field of `STATUS` but `BUSY`, bit 6, and that only with the
last sample. -/
def Obligations.SampleStepChangesOnlyBusy : Prop :=
  ∀ s t : State, sampleStep chip s = .next t →
    (∀ b, b ≠ 6 → (status t).getLsbD b = (status s).getLsbD b)
      ∧ (s.remain ≠ 0#32 → s.remain ≠ 1#32 → status t = status s)
      ∧ (s.remain = 1#32 → (status t).getLsbD 6 = false)

/-! ## The commands: results and frames (each next state is given whole, so what is not named is unchanged) -/

/-- R101: NOP leaves every state as it was, faulted or not. -/
def Obligations.NopChangesNothing : Prop :=
  ∀ s : State, exec .nop s = .next s

/-- R102: RESET writes every element, on an unfaulted and on a faulted core; what the host presents stays. -/
def Obligations.ResetCommandEffect : Prop :=
  ∀ s : State, exec .reset s = .next
    { mode := .sine, sampleRate := 0#32, freqRaw := 0#48, phase := .poly [], phaseStep := .poly [],
      prevOut := .poly [], kernel := .narrow, qpolicy := .round, rng := 0#32, remain := 0#32, configured := false,
      seeded := false, err := .none, out := [], cmd := s.cmd, rst := s.rst }

/-- R103, R104: LDRATE and LDFREQ write their register and nothing else before INIT, and raise
`ERR_ALREADY_CONFIGURED` after it. -/
def Obligations.LoadsBeforeInitOnly : Prop :=
  ∀ s : State, s.err = .none → ∀ (rate : RateWord) (freq : FreqWord),
    (s.configured = false →
      exec (.ldrate rate) s = .next { s with sampleRate := rate }
        ∧ exec (.ldfreq freq) s = .next { s with freqRaw := freq })
    ∧ (s.configured = true →
      exec (.ldrate rate) s = .next { s with err := .alreadyConfigured }
        ∧ exec (.ldfreq freq) s = .next { s with err := .alreadyConfigured })

/-- R105.  On an unfaulted core with no OscillatorState and an admitted rate and frequency, INIT sets the mode, the
step `2π · FREQ / SAMPLE_RATE`, phase and previous output 0 and `CONFIGURED`; all else is unchanged.  Else the first
of its four tests that fails, in the order written and on unbounded integers, raises its error and writes `ERR`
alone. -/
def Obligations.InitCreatesTheOscillator : Prop :=
  ∀ (m : Mode) (s : State), s.err = .none →
    (s.configured = false → admitted s.freqRaw s.sampleRate →
      ∃ step phase prev : ExactNum,
        exec (.init m) s = .next
            { s with mode := m, phaseStep := step, phase := phase, prevOut := prev, configured := true }
          ∧ toReal step = 2 * Real.pi * ((s.freqRaw.toNat : ℝ) / 65536) / (s.sampleRate.toNat : ℝ)
          ∧ toReal phase = 0 ∧ toReal prev = 0)
      ∧ (s.configured = true → exec (.init m) s = .next { s with err := .alreadyConfigured })
      ∧ (s.configured = false → s.sampleRate.toNat = 0 → exec (.init m) s = .next { s with err := .badRate })
      ∧ (s.configured = false → s.sampleRate.toNat ≠ 0 → s.freqRaw.toNat = 0 →
          exec (.init m) s = .next { s with err := .unsupportedFreq })
      ∧ (s.configured = false → s.sampleRate.toNat ≠ 0 → s.freqRaw.toNat ≠ 0 →
          s.sampleRate.toNat * 65536 ≤ 2 * s.freqRaw.toNat →
          exec (.init m) s = .next { s with err := .unsupportedFreq })

/-- R106: SETMODE writes `MODE` only, so phase, step, previous output and `RNG` are untouched; before INIT it
raises `ERR_NOT_CONFIGURED`. -/
def Obligations.SetmodeWritesModeOnly : Prop :=
  ∀ (m : Mode) (s : State), s.err = .none →
    (s.configured = true → exec (.setmode m) s = .next { s with mode := m })
      ∧ (s.configured = false → exec (.setmode m) s = .next { s with err := .notConfigured })

/-- R107, R108, R109: SETKERN, SETQ and SEED write their registers and nothing else, before and after INIT. -/
def Obligations.OptionsAreAlwaysLegal : Prop :=
  ∀ s : State, s.err = .none →
    (∀ k, exec (.setkern k) s = .next { s with kernel := k })
      ∧ (∀ q, exec (.setq q) s = .next { s with qpolicy := q })
      ∧ ∀ v, exec (.seed v) s = .next { s with rng := v, seeded := true }

/-- R180: the FILL command step writes `REMAIN` only; its two tests are made in order whatever the count. -/
def Obligations.FillCommandEffect : Prop :=
  ∀ (n : CountWord) (s : State), s.err = .none →
    (s.configured = true → (s.qpolicy = .dither → s.seeded = true) →
        exec (.fill n) s = .next { s with remain := n })
      ∧ (s.configured = false → exec (.fill n) s = .next { s with err := .notConfigured })
      ∧ (s.configured = true → s.qpolicy = .dither → s.seeded = false →
          exec (.fill n) s = .next { s with err := .noSeed })

/-- R184 (spec/45_fill.md §3): FILL 0 that passes its tests leaves an idle core exactly as it was. -/
def Obligations.FillZeroChangesNothing : Prop :=
  ∀ s : State, s.err = .none → s.remain = 0#32 → s.configured = true →
    (s.qpolicy = .dither → s.seeded = true) → exec (.fill 0#32) s = .next s

/-! ## Errors and the faulted state -/

/-- R201, R202: on an unfaulted core every command word completes, and the error it records is the one the table
and the order of the tests give, every constructor of the command set covered; a faulted core raises nothing more; a
sample step raises nothing; and the codes are those of the table. -/
def Obligations.ErrorOfEveryWord : Prop :=
  (∀ (w : CommandWord) (s : State), s.err = .none → ∃ t, command exec w s = .next t ∧ t.err = errorOfWord w s)
    ∧ (∀ (w : CommandWord) (s : State), s.err ≠ .none →
        ∃ t, command exec w s = .next t ∧ (t.err = s.err ∨ decode w = .ok .reset ∧ t.err = .none))
    ∧ (∀ s t : State, sampleStep chip s = .next t → t.err = s.err)
    ∧ ∀ e : ErrCode, (errCode e).toNat = errNumber e

/-- R203: raising an error writes `ERR` and changes nothing else; `STATUS` then shows `FAULT` and the code. -/
def Obligations.FailingCommandWritesErrOnly : Prop :=
  ∀ (w : CommandWord) (s t : State), s.err = .none → command exec w s = .next t → t.err ≠ .none →
    t = { s with err := t.err } ∧ (status t).getLsbD 7 = true ∧ (status t).toNat / 256 % 16 = errNumber t.err

/-- R204: a faulted core consumes and ignores every word but one that decodes to RESET, so `ERR` keeps the first
code; and a faulted core the invariant allows owes no sample.  The step uses up a level of the reset input where one
is still listed (log entry 6). -/
def Obligations.FaultedCoreIgnoresAllButReset : Prop :=
  (∀ (s : State) (w : CommandWord) (rest : List CommandWord), s.err ≠ .none →
      s.rst.head? ≠ some true → s.remain = 0#32 → s.cmd = w :: rest →
      (decode w ≠ .ok .reset → step s = .next { s with rst := s.rst.tail, cmd := rest })
        ∧ (decode w = .ok .reset → step s = .next { State.reset with cmd := rest, rst := s.rst.tail }))
    ∧ ∀ s : State, MachineInv s → s.err ≠ .none → s.remain = 0#32

/-- R205: only a reset leaves the faulted state, and it clears all other state with it. -/
def Obligations.OnlyResetLeavesTheFaultedState : Prop :=
  ∀ s t : State, s.err ≠ .none → step s = .next t → t.err ≠ s.err →
    t = { State.reset with cmd := t.cmd, rst := t.rst }
      ∧ ((∃ rs, s.rst = true :: rs) ∨ ∃ w rest, s.cmd = w :: rest ∧ decode w = .ok .reset)

/-- Every command other than FILL leaves an idle core idle and appends nothing to `OUT`; no command touches the
words presented after it (spec/40_config_commands.md §1). -/
def Obligations.CommandsProduceNoSamples : Prop :=
  ∀ (i : Instr) (s t : State), s.remain = 0#32 → exec i s = .next t →
    ((∀ n, i ≠ .fill n) → t.remain = 0#32) ∧ (i ≠ .reset → t.out = s.out) ∧ t.cmd = s.cmd ∧ t.rst = s.rst

/-! ## The sample step -/

/-- R181: whenever a sample is owed, in a state the invariant allows, an OscillatorState exists, no error is recorded
and the sample step completes.  It appends the quantized value of the generator `MODE` selects, computed at the phase
before the advance, then advances the phase and counts `REMAIN` down; `PREV_OUT` takes the generator's value in
Triangle mode alone, `RNG` advances under Dither alone, and no other state is written.  And with the reset input quiet
that is what the step of the machine does, its level used up where one is still listed (log entry 6). -/
def Obligations.SampleStepEffect : Prop :=
  ∀ s : State, MachineInv s → s.remain ≠ 0#32 →
    s.configured = true ∧ s.err = .none ∧ ∃ t, sampleStep chip s = .next t
      ∧ t.out = s.out ++ [BitVec.ofInt 16 (quantize numExact rngFn s.qpolicy
          (generate numExact s.mode s.kernel s.phase s.phaseStep s.prevOut) s.rng).1]
      ∧ t.phase = advance numExact s.phase s.phaseStep
      ∧ t.remain.toNat + 1 = s.remain.toNat
      ∧ (s.mode = .triangle → t.prevOut = genTriangle numExact s.kernel s.phase s.phaseStep s.prevOut)
      ∧ (s.mode ≠ .triangle → t.prevOut = s.prevOut)
      ∧ (s.qpolicy = .dither → t.rng = xs32Next s.rng)
      ∧ (s.qpolicy = .round → t.rng = s.rng)
      ∧ t.mode = s.mode ∧ t.sampleRate = s.sampleRate ∧ t.freqRaw = s.freqRaw ∧ t.phaseStep = s.phaseStep
      ∧ t.kernel = s.kernel ∧ t.qpolicy = s.qpolicy ∧ t.configured = s.configured ∧ t.seeded = s.seeded
      ∧ t.err = s.err ∧ t.cmd = s.cmd ∧ t.rst = s.rst
      ∧ (s.rst.head? ≠ some true → step s = .next { t with rst := s.rst.tail })

/-- R126 and U1 (spec/41_phase_accumulator.md §2): outside the precondition the model computes nothing and refuses.
That the whole sample step refuses is the model's choice, log entry 7. -/
def Obligations.OutsideThePreconditionRefused : Prop :=
  ∀ s : State, s.rst.head? ≠ some true → s.remain ≠ 0#32 → phaseInRange numExact s.phase s.phaseStep = false →
    step s = .refused .phaseOutsidePrecondition

/-- R182 (spec/45_fill.md §2): FILL as one big step has the same final state and the same `OUT` as the command step
followed by `count` sample steps. -/
def Obligations.BigFillEqualsSampleSteps : Prop :=
  ∀ (s : State) (n : CountWord), MachineInv s → s.configured = true → s.remain = 0#32 → s.err = .none →
    (s.qpolicy = .dither → s.seeded = true) →
    ∃ u, exec (.fill n) s = .next u ∧ sampleSteps chip n.toNat u = .next (fillWhole chip n s)

/-- R183 (spec/45_fill.md §3): call splitting.  `FILL a` followed at once by `FILL b` reaches the same state, with
the same samples, as `FILL (a+b)`. -/
def Obligations.CallSplitting : Prop :=
  ∀ (s : State) (a b : CountWord), MachineInv s → s.configured = true → s.err = .none → s.remain = 0#32 → s.rst = [] →
    (s.qpolicy = .dither → s.seeded = true) → a.toNat + b.toNat ≤ 4294967295 →
    ∃ t, Sys2Proof.core.run (a.toNat + b.toNat + 2) { s with cmd := [encode (.fill a), encode (.fill b)] } = .next t
      ∧ Sys2Proof.core.run (a.toNat + b.toNat + 1) { s with cmd := [encode (.fill (a + b))] } = .next t

/-- R185 (spec/45_fill.md §3): from `PHASE = 2π·τ`, `n` samples leave `PHASE = 2π·frac(τ + n·δ)`, with
`δ = FREQ / SAMPLE_RATE`. -/
def Obligations.PhaseAfterSamples : Prop :=
  ∀ (s : State) (τ : Rat) (n : Nat), MachineInv s → s.configured = true → 0 ≤ τ → τ < 1 → s.phase = numOfPi (2 * τ) →
    (produceSamples chip n s).phase
      = numOfPi (2 * Int.fract (τ + n * ((s.freqRaw.toNat : Rat) / 65536 / s.sampleRate.toNat)))

/-! ## The invariant and the whole machine -/

/-- The invariant holds right after reset. -/
def Obligations.InvariantAtReset : Prop := MachineInv State.reset

/-- Every step keeps the invariant: a sample step, every command, an ignored or illegal word, and both resets. -/
def Obligations.StepKeepsInvariant : Prop :=
  ∀ s t : State, MachineInv s → step s = .next t → MachineInv t

/-- From a state the invariant allows every step answers a next state, and so no run from reset ends in a fault or a
refusal, whatever the host presents.  Two of the model's choices are part of this: an idle step is a step (log
entry 5, DESIGN CHOICE), and an error of R201 is a next state with `ERR` set, not a fault (log entry 9, DEDUCED).
What rests on the rules is that a sample step always finds its precondition met (R36, R181, R105). -/
def Obligations.InvariantStatesNeverStop : Prop :=
  (∀ s : State, MachineInv s → ∃ t, step s = .next t)
    ∧ ∀ (n : Nat) (cmd : List CommandWord) (rst : List Bool),
        ∃ t, Sys2Proof.core.run n { State.reset with cmd := cmd, rst := rst } = .next t ∧ MachineInv t

/-- R36 (a), (b), (c) (spec/10_state.md §7): while an OscillatorState exists, `0 <= PHASE < 2π`, `0 < PHASE_STEP <
π`, and `PHASE_STEP` is `2π · FREQ / SAMPLE_RATE`, as real numbers. -/
def Obligations.PhaseAndStepStayInRange : Prop :=
  ∀ s : State, MachineInv s → s.configured = true →
    0 ≤ toReal s.phase ∧ toReal s.phase < 2 * Real.pi ∧ 0 < toReal s.phaseStep ∧ toReal s.phaseStep < Real.pi
      ∧ toReal s.phaseStep = 2 * Real.pi * ((s.freqRaw.toNat : ℝ) / 65536) / (s.sampleRate.toNat : ℝ)

/-- Only a reset ends the lifetime of an OscillatorState, and within it rate, frequency and step do not change
(spec/10_state.md §2, §8: R22, R25, R31, R37). -/
def Obligations.ConfigurationIsFixedForTheLifetime : Prop :=
  ∀ s t : State, s.configured = true → step s = .next t →
    (t.configured = true → t.sampleRate = s.sampleRate ∧ t.freqRaw = s.freqRaw ∧ t.phaseStep = s.phaseStep)
      ∧ (t.configured = false → t = { State.reset with cmd := t.cmd, rst := t.rst }
          ∧ ((∃ rs, s.rst = true :: rs) ∨ ∃ w rest, s.cmd = w :: rest ∧ decode w = .ok .reset))

/-- `OUT` is append-only until a reset empties it: a step that is no reset appends one sample if a sample is owed, and
leaves `OUT` as it was if none is (spec/10_state.md §6, spec/20_memory.md §1). -/
def Obligations.OutputIsAppendOnly : Prop :=
  ∀ s t : State, step s = .next t →
    (∃ q : Sample, s.remain ≠ 0#32 ∧ t.out = s.out ++ [q])
      ∨ (s.remain = 0#32 ∧ t.out = s.out)
      ∨ (t = { State.reset with cmd := t.cmd, rst := t.rst }
          ∧ ((∃ rs, s.rst = true :: rs) ∨ ∃ w rest, s.remain = 0#32 ∧ s.cmd = w :: rest ∧ decode w = .ok .reset))

/-! ## The datapath over the real numbers -/

/-- R121: `phase_step` is `2π · freq / sampleRate`; for an admitted configuration it lies in `(0, π)`. -/
def Obligations.PhaseStepFormula : Prop :=
  ∀ (f : FreqWord) (r : RateWord), admitted f r →
    toReal (phaseStepOf numExact f r) = 2 * Real.pi * ((f.toNat : ℝ) / 65536) / (r.toNat : ℝ)
      ∧ phaseStepOf numReal f r = toReal (phaseStepOf numExact f r)
      ∧ 0 < toReal (phaseStepOf numExact f r) ∧ toReal (phaseStepOf numExact f r) < Real.pi

/-- Under its precondition `advance` adds the step and subtracts `2π` once if the sum is at or above it, a sum of
exactly `2π` included; the loop of R123 gives the same at every bound from 1 up, and the result is in `[0, 2π)`.  The
form without a loop and the range are R124's, which the spec marks derived; that the model uses it is log entry 8
(DEDUCED). -/
def Obligations.AdvanceWraps : Prop :=
  ∀ phase step : ℝ, 0 ≤ phase → phase < 2 * Real.pi → 0 < step → step < 2 * Real.pi →
    (phase + step < 2 * Real.pi → advance numReal phase step = phase + step)
      ∧ (2 * Real.pi ≤ phase + step → advance numReal phase step = phase + step - 2 * Real.pi)
      ∧ 0 ≤ advance numReal phase step ∧ advance numReal phase step < 2 * Real.pi
      ∧ ∀ fuel, wrapLoop numReal (fuel + 1) (phase + step) = advance numReal phase step

/-- R125 (spec/41_phase_accumulator.md §2): after `N` advances the phase is `(phase0 + N·step) mod 2π`, exactly. -/
def Obligations.PhaseWrapProperty : Prop :=
  ∀ (phase step : ℝ) (n : ℕ), 0 ≤ phase → phase < 2 * Real.pi → 0 < step → step < 2 * Real.pi →
    (∃ k : ℤ, advanceTimes numReal step n phase = phase + n * step - k * (2 * Real.pi))
      ∧ 0 ≤ advanceTimes numReal step n phase ∧ advanceTimes numReal step n phase < 2 * Real.pi

/-- R132, R133: the two kernels over the reals, on their windows in the factored form of the rules' comments, and 0
elsewhere; the tests in the order of the rules. -/
def Obligations.KernelFormulas : Prop :=
  ∀ t dt : ℝ, 0 < dt →
    polyblepNarrow numReal t dt
        = (if 0 ≤ t ∧ t < dt then -(1 - t / dt) ^ 2 else if 1 - dt < t then ((t - 1) / dt + 1) ^ 2 else 0)
      ∧ polyblepWide numReal t dt
        = (if 0 ≤ t ∧ t < dt then -(1 - t / dt) ^ 2 / 2
            else if 1 - dt < t then ((t - 1) / dt + 1) ^ 2 / 2 else 0)

/-- R135: each kernel is 0 from `dt` to `1 - dt`, both ends included. -/
def Obligations.CorrectorZeroOutsideTheWindows : Prop :=
  ∀ (k : Kernel) (t dt : ℝ), 0 < dt → dt < 1 / 2 → dt ≤ t → t ≤ 1 - dt → polyblep numReal k t dt = 0

/-- R133 (spec/42_polyblep.md §2): the wide kernel is half the narrow one for all `t` and `dt`. -/
def Obligations.WideKernelIsHalfTheNarrow : Prop :=
  ∀ t dt : ℝ, polyblep numReal .wide t dt = polyblep numReal .narrow t dt / 2

/-- R136 (spec/42_polyblep.md §3): the narrow kernel lies in `[-1, 0)` on the first window and in `(0, 1)` on the
second, it is `-1` at 0, and it rises on each window. -/
def Obligations.NarrowKernelRange : Prop :=
  ∀ t dt : ℝ, 0 < dt → dt < 1 / 2 →
    polyblepNarrow numReal 0 dt = -1
      ∧ (0 ≤ t → t < dt → -1 ≤ polyblepNarrow numReal t dt ∧ polyblepNarrow numReal t dt < 0
          ∧ ∀ u, t < u → u < dt → polyblepNarrow numReal t dt < polyblepNarrow numReal u dt)
      ∧ (1 - dt < t → t < 1 → 0 < polyblepNarrow numReal t dt ∧ polyblepNarrow numReal t dt < 1
          ∧ ∀ u, t < u → u < 1 → polyblepNarrow numReal t dt < polyblepNarrow numReal u dt)

/-- R141 to R145: the four generators over the reals as the document's table has them, with `t = phase/2π`,
`dt = step/2π` and the remainder `mod(t + 1/2, 1)`; Triangle's value alone goes to `PREV_OUT`. -/
def Obligations.GeneratorFormulas : Prop :=
  ∀ (k : Kernel) (phase step prev : ℝ), 0 ≤ phase → phase < 2 * Real.pi → 0 < step → step < Real.pi →
    generate numReal .sine k phase step prev = Real.sin phase
      ∧ generate numReal .square k phase step prev
        = (if phase < Real.pi then 1 else -1)
            + polyblep numReal k (phase / (2 * Real.pi)) (step / (2 * Real.pi))
            - polyblep numReal k (Int.fract (phase / (2 * Real.pi) + 1 / 2)) (step / (2 * Real.pi))
      ∧ generate numReal .saw k phase step prev
        = phase / Real.pi - 1 - polyblep numReal k (phase / (2 * Real.pi)) (step / (2 * Real.pi))
      ∧ generate numReal .triangle k phase step prev
        = step * generate numReal .square k phase step prev + (1 - step) * prev
      ∧ ∀ (m : Mode) (y : ℝ), prevOutAfter m y prev = if m = .triangle then y else prev

/-- The corner cases of R142 and R143 (spec/43_generators.md §2): the corrected square is 0 (narrow) or ±1/2 (wide)
at its jumps and exactly ±1 away from them; the corrected saw is 0 or -1/2 at its jump and the naive ramp away from
it. -/
def Obligations.SquareAndSawCorners : Prop :=
  ∀ step : ℝ, 0 < step → step < Real.pi →
    genSquare numReal .narrow 0 step = 0 ∧ genSquare numReal .narrow Real.pi step = 0
      ∧ genSquare numReal .wide 0 step = 1 / 2 ∧ genSquare numReal .wide Real.pi step = -(1 / 2)
      ∧ genSaw numReal .narrow 0 step = 0 ∧ genSaw numReal .wide 0 step = -(1 / 2)
      ∧ ∀ (k : Kernel) (phase : ℝ),
          (step ≤ phase → phase ≤ Real.pi - step → genSquare numReal k phase step = 1)
            ∧ (Real.pi + step ≤ phase → phase ≤ 2 * Real.pi - step → genSquare numReal k phase step = -1)
            ∧ (step ≤ phase → phase ≤ 2 * Real.pi - step → genSaw numReal k phase step = phase / Real.pi - 1)

/-- R147 (spec/43_generators.md §3): Sine and Square lie in `[-1, 1]` and Saw in `(-1, 1)`, for either kernel and
for every step below `π`, overlapping windows included. -/
def Obligations.GeneratorRanges : Prop :=
  ∀ (k : Kernel) (phase step : ℝ), 0 ≤ phase → phase < 2 * Real.pi → 0 < step → step < Real.pi →
    (-1 ≤ genSine numReal phase ∧ genSine numReal phase ≤ 1)
      ∧ (-1 ≤ genSquare numReal k phase step ∧ genSquare numReal k phase step ≤ 1)
      ∧ (-1 < genSaw numReal k phase step ∧ genSaw numReal k phase step < 1)

/-- R149, its first sentence (spec/43_generators.md §3), on the machine: while `PHASE_STEP <= 1` a sample step keeps
`PREV_OUT` in `[-1, 1]`, as real numbers, in every mode. -/
def Obligations.TriangleStaysBoundedForSmallSteps : Prop :=
  ∀ s t : State, MachineInv s → s.configured = true → toReal s.phaseStep ≤ 1 → |toReal s.prevOut| ≤ 1 →
    sampleStep chip s = .next t → |toReal t.prevOut| ≤ 1

/-- R161, R162, R164, R167: the two policies over the reals and what each does to `RNG`.  Under Dither the scaled
sample is truncated, and moved up by one exactly when the draw is at least 1 less its fractional remainder. -/
def Obligations.QuantizerFormulas : Prop :=
  ∀ (f : ℝ) (rng : SeedWord),
    quantize numReal rngFn .round f rng = (clamp (-32768) 32767 (⌊(f + 1) * (65535 / 2) + 1 / 2⌋ - 32768), rng)
      ∧ quantize numReal rngFn .dither f rng
        = (clamp (-32768) 32767
            (⌊(f + 1) * (65535 / 2)⌋
              + (if 1 - Int.fract ((f + 1) * (65535 / 2)) ≤ (((rngFn rng).2 : Rat) : ℝ) then 1 else 0) - 32768),
            (rngFn rng).1)

/-- R169: Round takes -1 to -32768, 1 to 32767 and 0 to 0; and two more rows of R161: ties round up, and the map is
not symmetric. -/
def Obligations.RoundExactness : Prop :=
  quantizeRound numReal (-1) = -32768 ∧ quantizeRound numReal 1 = 32767 ∧ quantizeRound numReal 0 = 0
    ∧ quantizeRound numReal (2 / 65535) = 1 ∧ quantizeRound numReal (1 / 2) = 16383
    ∧ quantizeRound numReal (-(1 / 2)) = -16384

/-- R163 (spec/44_quantizer.md §1): in every number system both policies give an integer in `[-32768, 32767]`; over
the reals the clamp does not act for `f` in `[-1, 1]`. -/
def Obligations.QuantizerRange : Prop :=
  (∀ (α : Type) (N : NumSys α) (f : α) (r : Rat),
      (-32768 ≤ quantizeRound N f ∧ quantizeRound N f ≤ 32767)
        ∧ (-32768 ≤ quantizeDither N f r ∧ quantizeDither N f r ≤ 32767))
    ∧ ∀ f : ℝ, -1 ≤ f → f ≤ 1 →
        quantizeRound numReal f = ⌊(f + 1) * (65535 / 2) + 1 / 2⌋ - 32768
          ∧ ∀ r : Rat, 0 ≤ r → r < 1 → quantizeDither numReal f r = ⌊(f + 1) * (65535 / 2) + (r : ℝ)⌋ - 32768

/-- R165 (spec/44_quantizer.md §1): for any draw in `[0, 1)` Dither gives one of two codes, and only the first when
the scaled sample is an integer. -/
def Obligations.DitherTwoValues : Prop :=
  ∀ (f : ℝ) (r : Rat), 0 ≤ r → r < 1 →
    (quantizeDither numReal f r = clamp (-32768) 32767 (⌊(f + 1) * (65535 / 2)⌋ - 32768)
        ∨ quantizeDither numReal f r = clamp (-32768) 32767 (⌊(f + 1) * (65535 / 2)⌋ + 1 - 32768))
      ∧ (∀ z : ℤ, (f + 1) * (65535 / 2) = (z : ℝ) →
          quantizeDither numReal f r = clamp (-32768) 32767 (z - 32768))

/-- R166: a draw, on 32-bit unsigned numbers as the rule writes it, and its range. -/
def Obligations.RandomSourceRule : Prop :=
  ∀ s : SeedWord, ∀ s1 s2 s3 : Nat,
    s1 = s.toNat ^^^ (s.toNat * 2 ^ 13 % 2 ^ 32) → s2 = s1 ^^^ (s1 / 2 ^ 17) → s3 = s2 ^^^ (s2 * 2 ^ 5 % 2 ^ 32) →
      (rngFn s).1.toNat = s3 ∧ (rngFn s).2 = ((s3 / 2 ^ 8 : Nat) : Rat) / 2 ^ 24
        ∧ 0 ≤ (rngFn s).2 ∧ (rngFn s).2 ≤ 1 - 1 / 2 ^ 24

/-- R168 (spec/44_quantizer.md §2): 0 is a fixed point of `XS32` and draws 0, so under it Dither is plain truncation;
no other state is taken to 0. -/
def Obligations.ZeroSeedTruncates : Prop :=
  (∀ s : SeedWord, (rngFn s).1 = 0#32 ↔ s = 0#32)
    ∧ (rngFn 0#32).2 = 0
    ∧ ∀ f : ℝ, quantize numReal rngFn .dither f 0#32
        = (clamp (-32768) 32767 (⌊(f + 1) * (65535 / 2)⌋ - 32768), 0#32)

/-! ## The parameters, and the machine's arithmetic as that of the reals -/

/-- R7, R11, R38: the two OPEN parameters are an argument of the model.  For every number system and every generator,
reset takes its 0, INIT its step, and the sample step all of its values, from them; the host's machine is that model
for the parameters `chip`.  Model's choices: the values of `chip` (log entries 1 and 4, DESIGN CHOICE); for a `NUM`
other than `NUM_REAL`, the advance without the loop of R123 (log entry 8, DEDUCED); that the step is stated within the
precondition only, being refused outside it (log entry 7, DESIGN CHOICE); and how the levels of `RST` are held, a quiet
one being used up where it is still listed (log entry 6, DESIGN CHOICE). -/
def Obligations.ModelTakesItsParameters : Prop :=
  (∀ (α : Type) (P : Params α) (s : State α),
      execOf P .reset s = .next { State.resetTo (P.num.ofInt 0) with cmd := s.cmd, rst := s.rst }
        ∧ (∀ m, s.err = .none → s.configured = false → admitted s.freqRaw s.sampleRate →
            execOf P (.init m) s = .next
              { s with
                mode := m
                phaseStep := P.num.div
                  (P.num.mul P.num.twoPi (P.num.ofRat (mkRat (s.freqRaw.toNat : Int) 65536)))
                  (P.num.ofInt (s.sampleRate.toNat : Int))
                phase := P.num.ofInt 0
                prevOut := P.num.ofInt 0
                configured := true })
        ∧ (s.rst.head? ≠ some true → s.remain ≠ 0#32 → phaseInRange P.num s.phase s.phaseStep = true →
            ∃ t, stepOf P s = .next t
              ∧ t.out = s.out ++ [BitVec.ofInt 16 (quantize P.num P.rng s.qpolicy
                  (generate P.num s.mode s.kernel s.phase s.phaseStep s.prevOut) s.rng).1]
              ∧ t.phase = advance P.num s.phase s.phaseStep
              ∧ (s.mode = .triangle → t.prevOut = genTriangle P.num s.kernel s.phase s.phaseStep s.prevOut)
              ∧ (s.qpolicy = .dither → t.rng = (P.rng s.rng).1)
              ∧ t.rst = s.rst.tail))
    ∧ (∀ (i : Instr) (s : State), exec i s = execOf chip i s)
    ∧ (∀ s : State, step s = stepOf chip s)
    ∧ State.reset = State.resetTo (chip.num.ofInt 0)

/-- R11, under `NUM_REAL`: one sample of the machine is the sample of the literal rules over the real numbers, for
every mode, kernel, policy and generator `G`: the same code, the same `RNG`, and the phase and the previous output
that stand for the same real numbers. -/
def Obligations.SampleIsRealArithmetic : Prop :=
  ∀ (G : SeedWord → SeedWord × Rat) (s : State), MachineInv s → s.configured = true →
    samplePath numReal G s.mode s.kernel s.qpolicy (toReal s.phase) (toReal s.phaseStep) (toReal s.prevOut) s.rng
      = { code := (samplePathOf { num := numExact, rng := G } s).code
          phase := toReal (samplePathOf { num := numExact, rng := G } s).phase
          prevOut := toReal (samplePathOf { num := numExact, rng := G } s).prevOut
          rng := (samplePathOf { num := numExact, rng := G } s).rng }

/-- In Square and Saw modes the machine's samples are those of the real numbers (R13), and `decidedFloor` answers: the
floor needs neither the search over all precisions nor a free value.  That the floor is computed in such stages is the
model's choice, log entry 3 (DESIGN CHOICE). -/
def Obligations.SquareAndSawAreDecided : Prop :=
  ∀ s : State, MachineInv s → s.configured = true → (s.mode = .square ∨ s.mode = .saw) →
    (decidedFloor (floorArgument s)).isSome = true
      ∧ (samplePathOf chip s).code
        = (samplePath numReal rngFn s.mode s.kernel s.qpolicy (toReal s.phase) (toReal s.phaseStep)
            (toReal s.prevOut) s.rng).code

/-- R11, under `NUM_REAL`, for the whole machine and for every generator `G` of R7: from a state the invariant allows,
the step of the machine over plain data and the step of the same model over the real numbers both answer a next state,
and these two states are the same one; the invariant holds of it, so the same is true of every run. -/
def Obligations.StepIsTheRealMachine : Prop :=
  realState State.reset = State.resetTo 0
    ∧ ∀ (G : SeedWord → SeedWord × Rat) (s : State), MachineInv s →
        ∃ t, stepOf { num := numExact, rng := G } s = .next t ∧ MachineInv t
          ∧ stepOf { num := numReal, rng := G } (realState s) = .next (realState t)
end

