-- ==== Sys2Proof/Laws/Decode.lean ====
section
/-! SUPPORT. The two fields of an encoded word. -/

namespace Sys2Proof

theorem encodeWord_toNat (op : BitVec 8) (arg : Payload) :
    (encodeWord op arg).toNat = op.toNat * 2 ^ 56 + arg.toNat := by
  have h : (encodeWord op arg).toNat = (op ++ arg : BitVec (8 + 56)).toNat := rfl
  rw [h, BitVec.toNat_append, ← Nat.shiftLeft_add_eq_or_of_lt arg.isLt, Nat.shiftLeft_eq]

theorem opField_toNat (w : CommandWord) : (opField w).toNat = w.toNat / 2 ^ 56 := by
  have := w.isLt
  simp only [opField, BitVec.extractLsb'_toNat, Nat.shiftRight_eq_div_pow]
  omega

theorem argField_toNat (w : CommandWord) : (argField w).toNat = w.toNat % 2 ^ 56 := by
  simp [argField, BitVec.extractLsb'_toNat]

@[simp] theorem opField_encodeWord (op : BitVec 8) (arg : Payload) : opField (encodeWord op arg) = op := by
  apply BitVec.eq_of_toNat_eq
  have h := arg.isLt
  rw [opField_toNat, encodeWord_toNat]
  omega

@[simp] theorem argField_encodeWord (op : BitVec 8) (arg : Payload) : argField (encodeWord op arg) = arg := by
  apply BitVec.eq_of_toNat_eq
  have h := arg.isLt
  rw [argField_toNat, encodeWord_toNat]
  omega

end Sys2Proof
end

