-- ==== Sys2Proof/Laws/Exact.lean ====
section
/-! SUPPORT. The floor and the comparison of the machine's instance are those of the real numbers, for every value
that is decided at once or known to be irrational: for every polynomial in π, and for every sine form. -/

namespace Sys2Proof.Machine

/-- The values whose floor and sign are computed, and left to no free value. -/
def floorComputed (a : ExactNum) : Bool := (decidedFloor a).isSome || isIrrational a
def signComputed (a : ExactNum) : Bool := (decidedSign a).isSome || isIrrational a

theorem numFloor_exact {a : ExactNum} (h : floorComputed a = true) : numFloor a = ⌊toReal a⌋ := by
  unfold numFloor
  split
  · rename_i k hk; exact decidedFloor_sound hk
  · rename_i hn
    have hi : isIrrational a = true := by simpa [floorComputed, hn] using h
    rw [dif_pos hi]
    exact floorAt_sound (Option.some_get _).symm

theorem numSign_exact {a : ExactNum} (h : signComputed a = true) : ((numSign a : Int) : ℝ) = SignType.sign (toReal a) := by
  unfold numSign
  split
  · rename_i k hk; exact decidedSign_sound hk
  · rename_i hn
    have hi : isIrrational a = true := by simpa [signComputed, hn] using h
    rw [dif_pos hi]
    exact signAt_sound (Option.some_get _).symm

theorem numLess_exact {a b : ExactNum} (h : signComputed (numSub a b) = true) :
    numLess a b = decide (toReal a < toReal b) := by
  have hs := numSign_exact h
  rw [toReal_numSub] at hs
  unfold numLess
  generalize numSign (numSub a b) = s at hs
  rw [Bool.eq_iff_iff]
  simp only [decide_eq_true_eq]
  rcases lt_trichotomy (toReal a - toReal b) 0 with h | h | h
  · rw [sign_neg h] at hs
    have hs' : s = -1 := by exact_mod_cast (by simpa using hs : (s : ℝ) = -1)
    subst hs'; constructor <;> intro _ <;> [linarith; norm_num]
  · rw [h, sign_zero] at hs
    have hs' : s = 0 := by exact_mod_cast (by simpa using hs : (s : ℝ) = 0)
    subst hs'; constructor <;> intro h0 <;> [exact absurd h0 (by norm_num); linarith]
  · rw [sign_pos h] at hs
    have hs' : s = 1 := by exact_mod_cast (by simpa using hs : (s : ℝ) = 1)
    subst hs'; constructor <;> intro h0 <;> [exact absurd h0 (by norm_num); linarith]

/-! ### Every polynomial in π -/

theorem floorComputed_poly (p : List Rat) : floorComputed (.poly p) = true := by
  by_cases h : pConstant p = true <;> simp [floorComputed, decidedFloor, isIrrational, h]

theorem signComputed_poly (p : List Rat) : signComputed (.poly p) = true := by
  by_cases h : pConstant p = true <;> simp [signComputed, decidedSign, isIrrational, h]

theorem numFloor_poly (p : List Rat) : numFloor (.poly p) = ⌊toReal (.poly p)⌋ := numFloor_exact (floorComputed_poly p)

theorem numLess_poly (p q : List Rat) : numLess (.poly p) (.poly q) = decide (toReal (.poly p) < toReal (.poly q)) :=
  numLess_exact (signComputed_poly _)

end Sys2Proof.Machine
end

