-- ==== Sys2Proof/Laws/State.lean ====
section
/-! SUPPORT. One lemma per field per named update of the state, each true by rfl. -/

namespace Sys2Proof.Machine

variable {α : Type}

@[simp] theorem resetTo_mode (z : α) : (State.resetTo z).mode = .sine := rfl
@[simp] theorem resetTo_sampleRate (z : α) : (State.resetTo z).sampleRate = 0#32 := rfl
@[simp] theorem resetTo_freqRaw (z : α) : (State.resetTo z).freqRaw = 0#48 := rfl
@[simp] theorem resetTo_phase (z : α) : (State.resetTo z).phase = z := rfl
@[simp] theorem resetTo_phaseStep (z : α) : (State.resetTo z).phaseStep = z := rfl
@[simp] theorem resetTo_prevOut (z : α) : (State.resetTo z).prevOut = z := rfl
@[simp] theorem resetTo_kernel (z : α) : (State.resetTo z).kernel = .narrow := rfl
@[simp] theorem resetTo_qpolicy (z : α) : (State.resetTo z).qpolicy = .round := rfl
@[simp] theorem resetTo_rng (z : α) : (State.resetTo z).rng = 0#32 := rfl
@[simp] theorem resetTo_remain (z : α) : (State.resetTo z).remain = 0#32 := rfl
@[simp] theorem resetTo_configured (z : α) : (State.resetTo z).configured = false := rfl
@[simp] theorem resetTo_seeded (z : α) : (State.resetTo z).seeded = false := rfl
@[simp] theorem resetTo_err (z : α) : (State.resetTo z).err = .none := rfl
@[simp] theorem resetTo_out (z : α) : (State.resetTo z).out = [] := rfl
@[simp] theorem resetTo_cmd (z : α) : (State.resetTo z).cmd = [] := rfl
@[simp] theorem resetTo_rst (z : α) : (State.resetTo z).rst = [] := rfl

@[simp] theorem doReset_mode (P : Params α) (s : State α) : (doReset P s).mode = .sine := rfl
@[simp] theorem doReset_sampleRate (P : Params α) (s : State α) : (doReset P s).sampleRate = 0#32 := rfl
@[simp] theorem doReset_freqRaw (P : Params α) (s : State α) : (doReset P s).freqRaw = 0#48 := rfl
@[simp] theorem doReset_phase (P : Params α) (s : State α) : (doReset P s).phase = P.num.ofInt 0 := rfl
@[simp] theorem doReset_phaseStep (P : Params α) (s : State α) : (doReset P s).phaseStep = P.num.ofInt 0 := rfl
@[simp] theorem doReset_prevOut (P : Params α) (s : State α) : (doReset P s).prevOut = P.num.ofInt 0 := rfl
@[simp] theorem doReset_kernel (P : Params α) (s : State α) : (doReset P s).kernel = .narrow := rfl
@[simp] theorem doReset_qpolicy (P : Params α) (s : State α) : (doReset P s).qpolicy = .round := rfl
@[simp] theorem doReset_rng (P : Params α) (s : State α) : (doReset P s).rng = 0#32 := rfl
@[simp] theorem doReset_remain (P : Params α) (s : State α) : (doReset P s).remain = 0#32 := rfl
@[simp] theorem doReset_configured (P : Params α) (s : State α) : (doReset P s).configured = false := rfl
@[simp] theorem doReset_seeded (P : Params α) (s : State α) : (doReset P s).seeded = false := rfl
@[simp] theorem doReset_err (P : Params α) (s : State α) : (doReset P s).err = .none := rfl
@[simp] theorem doReset_out (P : Params α) (s : State α) : (doReset P s).out = [] := rfl
@[simp] theorem doReset_cmd (P : Params α) (s : State α) : (doReset P s).cmd = s.cmd := rfl
@[simp] theorem doReset_rst (P : Params α) (s : State α) : (doReset P s).rst = s.rst := rfl

@[simp] theorem outWrite_mode (q : Int) (s : State α) : (outWrite q s).mode = s.mode := rfl
@[simp] theorem outWrite_sampleRate (q : Int) (s : State α) : (outWrite q s).sampleRate = s.sampleRate := rfl
@[simp] theorem outWrite_freqRaw (q : Int) (s : State α) : (outWrite q s).freqRaw = s.freqRaw := rfl
@[simp] theorem outWrite_phase (q : Int) (s : State α) : (outWrite q s).phase = s.phase := rfl
@[simp] theorem outWrite_phaseStep (q : Int) (s : State α) : (outWrite q s).phaseStep = s.phaseStep := rfl
@[simp] theorem outWrite_prevOut (q : Int) (s : State α) : (outWrite q s).prevOut = s.prevOut := rfl
@[simp] theorem outWrite_kernel (q : Int) (s : State α) : (outWrite q s).kernel = s.kernel := rfl
@[simp] theorem outWrite_qpolicy (q : Int) (s : State α) : (outWrite q s).qpolicy = s.qpolicy := rfl
@[simp] theorem outWrite_rng (q : Int) (s : State α) : (outWrite q s).rng = s.rng := rfl
@[simp] theorem outWrite_remain (q : Int) (s : State α) : (outWrite q s).remain = s.remain := rfl
@[simp] theorem outWrite_configured (q : Int) (s : State α) : (outWrite q s).configured = s.configured := rfl
@[simp] theorem outWrite_seeded (q : Int) (s : State α) : (outWrite q s).seeded = s.seeded := rfl
@[simp] theorem outWrite_err (q : Int) (s : State α) : (outWrite q s).err = s.err := rfl
@[simp] theorem outWrite_out (q : Int) (s : State α) : (outWrite q s).out = s.out ++ [BitVec.ofInt 16 q] := rfl
@[simp] theorem outWrite_cmd (q : Int) (s : State α) : (outWrite q s).cmd = s.cmd := rfl
@[simp] theorem outWrite_rst (q : Int) (s : State α) : (outWrite q s).rst = s.rst := rfl

@[simp] theorem createOscillator_mode (P : Params α) (m : Mode) (s : State α) : (createOscillator P m s).mode = m := rfl
@[simp] theorem createOscillator_sampleRate (P : Params α) (m : Mode) (s : State α) : (createOscillator P m s).sampleRate = s.sampleRate := rfl
@[simp] theorem createOscillator_freqRaw (P : Params α) (m : Mode) (s : State α) : (createOscillator P m s).freqRaw = s.freqRaw := rfl
@[simp] theorem createOscillator_phase (P : Params α) (m : Mode) (s : State α) : (createOscillator P m s).phase = P.num.ofInt 0 := rfl
@[simp] theorem createOscillator_phaseStep (P : Params α) (m : Mode) (s : State α) : (createOscillator P m s).phaseStep = phaseStepOf P.num s.freqRaw s.sampleRate := rfl
@[simp] theorem createOscillator_prevOut (P : Params α) (m : Mode) (s : State α) : (createOscillator P m s).prevOut = P.num.ofInt 0 := rfl
@[simp] theorem createOscillator_kernel (P : Params α) (m : Mode) (s : State α) : (createOscillator P m s).kernel = s.kernel := rfl
@[simp] theorem createOscillator_qpolicy (P : Params α) (m : Mode) (s : State α) : (createOscillator P m s).qpolicy = s.qpolicy := rfl
@[simp] theorem createOscillator_rng (P : Params α) (m : Mode) (s : State α) : (createOscillator P m s).rng = s.rng := rfl
@[simp] theorem createOscillator_remain (P : Params α) (m : Mode) (s : State α) : (createOscillator P m s).remain = s.remain := rfl
@[simp] theorem createOscillator_configured (P : Params α) (m : Mode) (s : State α) : (createOscillator P m s).configured = true := rfl
@[simp] theorem createOscillator_seeded (P : Params α) (m : Mode) (s : State α) : (createOscillator P m s).seeded = s.seeded := rfl
@[simp] theorem createOscillator_err (P : Params α) (m : Mode) (s : State α) : (createOscillator P m s).err = s.err := rfl
@[simp] theorem createOscillator_out (P : Params α) (m : Mode) (s : State α) : (createOscillator P m s).out = s.out := rfl
@[simp] theorem createOscillator_cmd (P : Params α) (m : Mode) (s : State α) : (createOscillator P m s).cmd = s.cmd := rfl
@[simp] theorem createOscillator_rst (P : Params α) (m : Mode) (s : State α) : (createOscillator P m s).rst = s.rst := rfl

@[simp] theorem produceSample_mode (P : Params α) (s : State α) : (produceSample P s).mode = s.mode := rfl
@[simp] theorem produceSample_sampleRate (P : Params α) (s : State α) : (produceSample P s).sampleRate = s.sampleRate := rfl
@[simp] theorem produceSample_freqRaw (P : Params α) (s : State α) : (produceSample P s).freqRaw = s.freqRaw := rfl
@[simp] theorem produceSample_phase (P : Params α) (s : State α) : (produceSample P s).phase = (samplePathOf P s).phase := rfl
@[simp] theorem produceSample_phaseStep (P : Params α) (s : State α) : (produceSample P s).phaseStep = s.phaseStep := rfl
@[simp] theorem produceSample_prevOut (P : Params α) (s : State α) : (produceSample P s).prevOut = (samplePathOf P s).prevOut := rfl
@[simp] theorem produceSample_kernel (P : Params α) (s : State α) : (produceSample P s).kernel = s.kernel := rfl
@[simp] theorem produceSample_qpolicy (P : Params α) (s : State α) : (produceSample P s).qpolicy = s.qpolicy := rfl
@[simp] theorem produceSample_rng (P : Params α) (s : State α) : (produceSample P s).rng = (samplePathOf P s).rng := rfl
@[simp] theorem produceSample_remain (P : Params α) (s : State α) : (produceSample P s).remain = s.remain := rfl
@[simp] theorem produceSample_configured (P : Params α) (s : State α) : (produceSample P s).configured = s.configured := rfl
@[simp] theorem produceSample_seeded (P : Params α) (s : State α) : (produceSample P s).seeded = s.seeded := rfl
@[simp] theorem produceSample_err (P : Params α) (s : State α) : (produceSample P s).err = s.err := rfl
@[simp] theorem produceSample_out (P : Params α) (s : State α) : (produceSample P s).out = s.out ++ [BitVec.ofInt 16 (samplePathOf P s).code] := rfl
@[simp] theorem produceSample_cmd (P : Params α) (s : State α) : (produceSample P s).cmd = s.cmd := rfl
@[simp] theorem produceSample_rst (P : Params α) (s : State α) : (produceSample P s).rst = s.rst := rfl

@[simp] theorem presentWord_mode (w : CommandWord) (s : State α) : (presentWord w s).mode = s.mode := rfl
@[simp] theorem presentWord_sampleRate (w : CommandWord) (s : State α) : (presentWord w s).sampleRate = s.sampleRate := rfl
@[simp] theorem presentWord_freqRaw (w : CommandWord) (s : State α) : (presentWord w s).freqRaw = s.freqRaw := rfl
@[simp] theorem presentWord_phase (w : CommandWord) (s : State α) : (presentWord w s).phase = s.phase := rfl
@[simp] theorem presentWord_phaseStep (w : CommandWord) (s : State α) : (presentWord w s).phaseStep = s.phaseStep := rfl
@[simp] theorem presentWord_prevOut (w : CommandWord) (s : State α) : (presentWord w s).prevOut = s.prevOut := rfl
@[simp] theorem presentWord_kernel (w : CommandWord) (s : State α) : (presentWord w s).kernel = s.kernel := rfl
@[simp] theorem presentWord_qpolicy (w : CommandWord) (s : State α) : (presentWord w s).qpolicy = s.qpolicy := rfl
@[simp] theorem presentWord_rng (w : CommandWord) (s : State α) : (presentWord w s).rng = s.rng := rfl
@[simp] theorem presentWord_remain (w : CommandWord) (s : State α) : (presentWord w s).remain = 0#32 := rfl
@[simp] theorem presentWord_configured (w : CommandWord) (s : State α) : (presentWord w s).configured = s.configured := rfl
@[simp] theorem presentWord_seeded (w : CommandWord) (s : State α) : (presentWord w s).seeded = s.seeded := rfl
@[simp] theorem presentWord_err (w : CommandWord) (s : State α) : (presentWord w s).err = s.err := rfl
@[simp] theorem presentWord_out (w : CommandWord) (s : State α) : (presentWord w s).out = s.out := rfl
@[simp] theorem presentWord_cmd (w : CommandWord) (s : State α) : (presentWord w s).cmd = w :: s.cmd := rfl
@[simp] theorem presentWord_rst (w : CommandWord) (s : State α) : (presentWord w s).rst = [] := rfl

end Sys2Proof.Machine
end

