-- ==== Sys2Proof/Laws/Ops.lean ====
section
/-! SUPPORT. What each shared operation and each step can do, said once: if it answers `next t`, one of these cases
holds. -/

namespace Sys2Proof.Machine

variable {α : Type} {P : Params α}

@[simp] theorem raise_eq (e : ErrCode) (s : State α) : raise e s = .next { s with err := e } := rfl

theorem unlessFaulted_live {s : State α} (h : s.err = .none) (f : State α → Result α) : unlessFaulted f s = f s := by
  simp [unlessFaulted, h]

theorem unlessFaulted_faulted {s : State α} (h : s.err ≠ .none) (f : State α → Result α) : unlessFaulted f s = .next s := by
  simp [unlessFaulted, h]

theorem unlessFaulted_cases {s t : State α} {f : State α → Result α} (h : unlessFaulted f s = .next t) :
    (s.err = .none ∧ f s = .next t) ∨ (s.err ≠ .none ∧ t = s) := by
  by_cases he : s.err = .none
  · exact .inl ⟨he, by rwa [unlessFaulted_live he] at h⟩
  · rw [unlessFaulted_faulted he] at h
    exact .inr ⟨he, by injection h with h; exact h.symm⟩

/-- A sample step answers next exactly in range, and then it has made one sample. -/
theorem sampleStep_cases {s t : State α} (h : sampleStep P s = .next t) :
    phaseInRange P.num s.phase s.phaseStep = true ∧ t = { produceSample P s with remain := s.remain - 1#32 } := by
  unfold sampleStep at h
  split at h
  · rename_i hr; injection h with h; exact ⟨hr, h.symm⟩
  · cases h

theorem sampleStep_inRange {s : State α} (h : phaseInRange P.num s.phase s.phaseStep = true) :
    sampleStep P s = .next { produceSample P s with remain := s.remain - 1#32 } := by
  simp [sampleStep, h]

/-- The machine's `exec` is the parametric one for the parameters of the chip. -/
theorem exec_eq (i : Instr) (s : State) : exec i s = execOf chip i s := by cases i <;> rfl

theorem step_eq (s : State) : step s = stepOf chip s := by
  have : exec = execOf chip := funext fun i => funext (exec_eq i)
  rw [step, stepOf, this]

@[simp] theorem resetTo_chip : State.resetTo (chip.num.ofInt 0) = State.reset := rfl

/-- What the meaning of a command on an unfaulted core can be: an error and nothing else, or its effect. -/
inductive CommandEffect (P : Params α) : Instr → State α → State α → Prop where
  | nop (s) : CommandEffect P .nop s s
  | reset (s) : CommandEffect P .reset s (doReset P s)
  | ldrate (r s) : s.configured = false → CommandEffect P (.ldrate r) s { s with sampleRate := r }
  | ldrateError (r s) : s.configured = true → CommandEffect P (.ldrate r) s { s with err := .alreadyConfigured }
  | ldfreq (f s) : s.configured = false → CommandEffect P (.ldfreq f) s { s with freqRaw := f }
  | ldfreqError (f s) : s.configured = true → CommandEffect P (.ldfreq f) s { s with err := .alreadyConfigured }
  | init (m s) : s.configured = false → s.sampleRate ≠ 0#32 → s.freqRaw ≠ 0#48 →
      atOrAboveNyquist s.freqRaw s.sampleRate = false → CommandEffect P (.init m) s (createOscillator P m s)
  | initConfigured (m s) : s.configured = true → CommandEffect P (.init m) s { s with err := .alreadyConfigured }
  | initRate (m s) : s.configured = false → s.sampleRate = 0#32 → CommandEffect P (.init m) s { s with err := .badRate }
  | initFreq (m s) : s.configured = false → s.sampleRate ≠ 0#32 →
      (s.freqRaw = 0#48 ∨ atOrAboveNyquist s.freqRaw s.sampleRate = true) →
      CommandEffect P (.init m) s { s with err := .unsupportedFreq }
  | setmode (m s) : s.configured = true → CommandEffect P (.setmode m) s { s with mode := m }
  | setmodeError (m s) : s.configured = false → CommandEffect P (.setmode m) s { s with err := .notConfigured }
  | setkern (k s) : CommandEffect P (.setkern k) s { s with kernel := k }
  | setq (q s) : CommandEffect P (.setq q) s { s with qpolicy := q }
  | seed (v s) : CommandEffect P (.seed v) s { s with rng := v, seeded := true }
  | fill (n s) : s.configured = true → (s.qpolicy = .dither → s.seeded = true) →
      CommandEffect P (.fill n) s { s with remain := n }
  | fillConfigured (n s) : s.configured = false → CommandEffect P (.fill n) s { s with err := .notConfigured }
  | fillSeed (n s) : s.configured = true → s.qpolicy = .dither → s.seeded = false →
      CommandEffect P (.fill n) s { s with err := .noSeed }

/-- Every command on an unfaulted core completes, with one of the effects above. -/
theorem execOf_live (P : Params α) (i : Instr) (s : State α) (h : s.err = .none) :
    ∃ t, execOf P i s = .next t ∧ CommandEffect P i s t := by
  cases i with
  | nop => exact ⟨_, rfl, .nop s⟩
  | reset => exact ⟨_, rfl, .reset s⟩
  | ldrate r =>
    by_cases hc : s.configured = true
    · exact ⟨_, by simp [execOf, execLdrate, unlessFaulted_live h, hc], .ldrateError r s hc⟩
    · exact ⟨_, by simp [execOf, execLdrate, unlessFaulted_live h, hc], .ldrate r s (by simpa using hc)⟩
  | ldfreq f =>
    by_cases hc : s.configured = true
    · exact ⟨_, by simp [execOf, execLdfreq, unlessFaulted_live h, hc], .ldfreqError f s hc⟩
    · exact ⟨_, by simp [execOf, execLdfreq, unlessFaulted_live h, hc], .ldfreq f s (by simpa using hc)⟩
  | init m =>
    by_cases hc : s.configured = true
    · exact ⟨_, by simp [execOf, execInitOf, unlessFaulted_live h, hc], .initConfigured m s hc⟩
    · have hc' : s.configured = false := by simpa using hc
      by_cases hr : s.sampleRate = 0#32
      · exact ⟨_, by simp [execOf, execInitOf, unlessFaulted_live h, hc, hr], .initRate m s hc' hr⟩
      · by_cases hf : s.freqRaw = 0#48
        · exact ⟨_, by simp [execOf, execInitOf, unlessFaulted_live h, hc, hr, hf],
            .initFreq m s hc' hr (.inl hf)⟩
        · by_cases hn : atOrAboveNyquist s.freqRaw s.sampleRate = true
          · exact ⟨_, by simp [execOf, execInitOf, unlessFaulted_live h, hc, hr, hf, hn],
              .initFreq m s hc' hr (.inr hn)⟩
          · exact ⟨_, by simp [execOf, execInitOf, unlessFaulted_live h, hc, hr, hf, hn],
              .init m s hc' hr hf (by simpa using hn)⟩
  | setmode m =>
    by_cases hc : s.configured = false
    · exact ⟨_, by simp [execOf, execSetmode, unlessFaulted_live h, hc], .setmodeError m s hc⟩
    · exact ⟨_, by simp [execOf, execSetmode, unlessFaulted_live h, hc], .setmode m s (by simpa using hc)⟩
  | setkern k => exact ⟨_, by simp [execOf, execSetkern, unlessFaulted_live h], .setkern k s⟩
  | setq q => exact ⟨_, by simp [execOf, execSetq, unlessFaulted_live h], .setq q s⟩
  | seed v => exact ⟨_, by simp [execOf, execSeed, unlessFaulted_live h], .seed v s⟩
  | fill n =>
    by_cases hc : s.configured = false
    · exact ⟨_, by simp [execOf, execFill, unlessFaulted_live h, hc], .fillConfigured n s hc⟩
    · have hc' : s.configured = true := by simpa using hc
      by_cases hq : s.qpolicy = .dither
      · by_cases hs : s.seeded = false
        · exact ⟨_, by simp [execOf, execFill, unlessFaulted_live h, hc', hq, hs], .fillSeed n s hc' hq hs⟩
        · exact ⟨_, by simp [execOf, execFill, unlessFaulted_live h, hc', hq, hs],
            .fill n s hc' (fun _ => by simpa using hs)⟩
      · exact ⟨_, by simp [execOf, execFill, unlessFaulted_live h, hc', hq],
          .fill n s hc' (fun hd => absurd hd hq)⟩

theorem execOf_effect {i : Instr} {s t : State α} (h : s.err = .none) (ht : execOf P i s = .next t) : CommandEffect P i s t := by
  obtain ⟨u, hu, he⟩ := execOf_live P i s h
  rw [hu] at ht
  injection ht with ht
  exact ht ▸ he

/-- A faulted core performs RESET and ignores the rest. -/
theorem execOf_faulted (P : Params α) (i : Instr) (s : State α) (h : s.err ≠ .none) :
    execOf P i s = .next (if i = .reset then doReset P s else s) := by
  cases i <;>
    simp [execOf, execNop, execResetOf, execLdrate, execLdfreq, execInitOf, execSetmode, execSetkern, execSetq, execSeed,
      execFill, unlessFaulted_faulted h]

/-- What a command (execOf P) word does to an idle core. -/
theorem command_cases (P : Params α) (w : CommandWord) (s : State α) :
    (∃ i t, decode w = .ok i ∧ s.err = .none ∧ command (execOf P) w s = .next t ∧ CommandEffect P i s t)
      ∨ (decode w = .ok .reset ∧ s.err ≠ .none ∧ command (execOf P) w s = .next (doReset P s))
      ∨ (decode w ≠ .ok .reset ∧ s.err ≠ .none ∧ command (execOf P) w s = .next s)
      ∨ ((∃ e, decode w = .error e) ∧ s.err = .none ∧ command (execOf P) w s = .next { s with err := .illegalCmd }) := by
  unfold command
  cases hd : decode w with
  | ok i =>
    by_cases he : s.err = .none
    · obtain ⟨t, ht, hc⟩ := execOf_live P i s he
      exact .inl ⟨i, t, rfl, he, ht, hc⟩
    · by_cases hi : i = .reset
      · subst hi
        exact .inr (.inl ⟨rfl, he, by simp [execOf_faulted P _ s he]⟩)
      · exact .inr (.inr (.inl ⟨by simpa using hi, he, by simp [execOf_faulted P i s he, hi]⟩))
  | error e =>
    by_cases he : s.err = .none
    · exact .inr (.inr (.inr ⟨⟨e, rfl⟩, he, by simp [unlessFaulted_live he]⟩))
    · exact .inr (.inr (.inl ⟨by simp, he, by simp [unlessFaulted_faulted he]⟩))

/-- What a step can do, the reset input being quiet. -/
theorem coreStep_cases {s t : State α} (h : coreStep P (execOf P) s = .next t) :
    (s.remain ≠ 0#32 ∧ sampleStep P s = .next t)
      ∨ (s.remain = 0#32 ∧ s.cmd = [] ∧ t = s)
      ∨ (∃ w rest, s.remain = 0#32 ∧ s.cmd = w :: rest ∧ command (execOf P) w { s with cmd := rest } = .next t) := by
  unfold coreStep at h
  split at h
  · rename_i hr
    split at h
    · rename_i hc; injection h with h; exact .inr (.inl ⟨hr, hc, h.symm⟩)
    · rename_i w rest hc; exact .inr (.inr ⟨w, rest, hr, hc, h⟩)
  · rename_i hr; exact .inl ⟨hr, h⟩

/-- What a step can do. -/
theorem stepOf_cases {s t : State α} (h : stepOf P s = .next t) :
    (∃ rest, s.rst = true :: rest ∧ t = doReset P { s with rst := rest })
      ∨ (∃ rest, s.rst = false :: rest ∧ coreStep P (execOf P) { s with rst := rest } = .next t)
      ∨ (s.rst = [] ∧ coreStep P (execOf P) s = .next t) := by
  unfold stepOf portStep at h
  split at h
  · rename_i hr; exact .inr (.inr ⟨hr, h⟩)
  · rename_i rest hr; injection h with h; exact .inl ⟨rest, hr, h.symm⟩
  · rename_i rest hr; exact .inr (.inl ⟨rest, hr, h⟩)

/-- With the reset input quiet a step is a step of the core, and uses up the level if one is listed. -/
theorem stepOf_quiet {s : State α} (h : s.rst.head? ≠ some true) :
    stepOf P s = coreStep P (execOf P) { s with rst := s.rst.tail } := by
  unfold stepOf portStep
  split
  · rename_i hr; rw [hr, List.tail_nil, ← hr]
  · rename_i hr; simp [hr] at h
  · rename_i hr; rw [hr, List.tail_cons]

end Sys2Proof.Machine
end

