-- ==== Sys2Proof/Laws/PerInstr.lean ====
section
/-! SUPPORT. Statements about every command as syntax, one lemma per constructor. -/

namespace Sys2Proof.Laws.EncodedWord

/-- Family EncodedWord: the command is well formed and so is its word (R71, R81). -/
def Statement (i : Instr) : Prop := i.wellFormed = true ∧ (encode i).wellFormed = true

theorem nop : Statement .nop := ⟨rfl, by decide⟩

theorem reset : Statement .reset := ⟨rfl, by decide⟩

theorem ldrate (r : RateWord) : Statement (.ldrate r) := by
  refine ⟨decide_eq_true r.isLt, ?_⟩
  have h := r.isLt
  simp only [CommandWord.wellFormed, encode, opField_encodeWord, argField_encodeWord]
  simp [payloadWidth]
  omega

theorem ldfreq (f : FreqWord) : Statement (.ldfreq f) := by
  refine ⟨decide_eq_true f.isLt, ?_⟩
  have h := f.isLt
  simp only [CommandWord.wellFormed, encode, opField_encodeWord, argField_encodeWord]
  simp [payloadWidth]
  omega

theorem init (m : Mode) : Statement (.init m) := ⟨rfl, by cases m <;> decide⟩

theorem setmode (m : Mode) : Statement (.setmode m) := ⟨rfl, by cases m <;> decide⟩

theorem setkern (k : Kernel) : Statement (.setkern k) := ⟨rfl, by cases k <;> decide⟩

theorem setq (q : QPolicy) : Statement (.setq q) := ⟨rfl, by cases q <;> decide⟩

theorem seed (v : SeedWord) : Statement (.seed v) := by
  refine ⟨decide_eq_true v.isLt, ?_⟩
  have h := v.isLt
  simp only [CommandWord.wellFormed, encode, opField_encodeWord, argField_encodeWord]
  simp [payloadWidth]
  omega

theorem fill (n : CountWord) : Statement (.fill n) := by
  refine ⟨decide_eq_true n.isLt, ?_⟩
  have h := n.isLt
  simp only [CommandWord.wellFormed, encode, opField_encodeWord, argField_encodeWord]
  simp [payloadWidth]
  omega

end Sys2Proof.Laws.EncodedWord
end

