-- ==== Sys2Proof/Laws/Turns.lean ====
section
/-! SUPPORT. The machine's arithmetic on rationals and on rational multiples of π stays in that form, and its
comparisons there are decided: what R13 calls the turns form. -/

namespace Sys2Proof.Machine

/-! ### The forms `numOfRat q` and `numOfPi q` -/

theorem pCons_nil (q : Rat) : pCons q [] = if q = 0 then [] else [q] := by
  unfold pCons; by_cases h : q = 0 <;> simp [h]

theorem numOfRat_eq (q : Rat) : numOfRat q = .poly (if q = 0 then [] else [q]) := by rw [numOfRat, pCons_nil]

theorem numOfPi_eq (q : Rat) : numOfPi q = .poly (if q = 0 then [] else [0, q]) := by
  rw [numOfPi, pCons_nil]
  by_cases h : q = 0
  · simp [h, pCons]
  · simp [h, pCons]

theorem numOfInt_eq (i : Int) : numOfInt i = numOfRat (i : Rat) := by rw [numOfInt, Rat.mkRat_one]

theorem numPi_eq : numPi = numOfPi 1 := rfl
theorem numTwoPi_eq : numTwoPi = numOfPi 2 := rfl

theorem numAdd_rat (a b : Rat) : numAdd (numOfRat a) (numOfRat b) = numOfRat (a + b) := by
  simp only [numOfRat_eq]
  by_cases ha : a = 0 <;> by_cases hb : b = 0 <;> simp [ha, hb, numAdd, pAdd, pCons_nil]

theorem numAdd_pi (a b : Rat) : numAdd (numOfPi a) (numOfPi b) = numOfPi (a + b) := by
  simp only [numOfPi_eq]
  by_cases ha : a = 0 <;> by_cases hb : b = 0 <;> simp [ha, hb, numAdd, pAdd, pCons_nil]
  by_cases hab : a + b = 0 <;> simp [hab, pCons]

theorem pScale_single (c a : Rat) : pScale c [a] = if c * a = 0 then [] else [c * a] := by
  simp [pScale, pCons_nil]

theorem numSub_rat (a b : Rat) : numSub (numOfRat a) (numOfRat b) = numOfRat (a - b) := by
  simp only [numOfRat_eq]
  by_cases ha : a = 0 <;> by_cases hb : b = 0 <;> simp [ha, hb, numSub, pSub, pAdd, pScale, pCons_nil, sub_eq_add_neg]

theorem numSub_pi (a b : Rat) : numSub (numOfPi a) (numOfPi b) = numOfPi (a - b) := by
  simp only [numOfPi_eq]
  by_cases ha : a = 0 <;> by_cases hb : b = 0 <;>
    simp [ha, hb, numSub, pSub, pAdd, pScale, pCons, sub_eq_add_neg]
  by_cases hab : a + -b = 0 <;> simp [hab]

theorem numMul_rat (a b : Rat) : numMul (numOfRat a) (numOfRat b) = numOfRat (a * b) := by
  simp only [numOfRat_eq]
  by_cases ha : a = 0 <;> by_cases hb : b = 0 <;> simp [ha, hb, numMul, pMul, pAdd, pScale, pCons]

theorem numMul_pi_rat (a b : Rat) : numMul (numOfPi a) (numOfRat b) = numOfPi (a * b) := by
  simp only [numOfRat_eq, numOfPi_eq]
  by_cases ha : a = 0 <;> by_cases hb : b = 0 <;> simp [ha, hb, numMul, pMul, pAdd, pScale, pCons]

theorem numDiv_rat (a : Rat) {b : Rat} (hb : b ≠ 0) : numDiv (numOfRat a) (numOfRat b) = numOfRat (a / b) := by
  simp only [numOfRat_eq]
  by_cases ha : a = 0 <;>
    simp [ha, hb, numDiv, pDiv, pMonomial, pShiftDown, pScale, pCons, div_eq_inv_mul]

theorem numDiv_pi_rat (a : Rat) {b : Rat} (hb : b ≠ 0) : numDiv (numOfPi a) (numOfRat b) = numOfPi (a / b) := by
  simp only [numOfRat_eq, numOfPi_eq]
  by_cases ha : a = 0 <;>
    simp [ha, hb, numDiv, pDiv, pMonomial, pShiftDown, pScale, pCons, div_eq_inv_mul]

theorem numDiv_pi_pi (a : Rat) {b : Rat} (hb : b ≠ 0) : numDiv (numOfPi a) (numOfPi b) = numOfRat (a / b) := by
  simp only [numOfRat_eq, numOfPi_eq]
  by_cases ha : a = 0 <;>
    simp [ha, hb, numDiv, pDiv, pMonomial, pShiftDown, pScale, pCons, div_eq_inv_mul]

theorem decidedSign_rat (q : Rat) : decidedSign (numOfRat q) = some (qSign q) := by
  rw [numOfRat_eq]
  by_cases h : q = 0 <;> simp [h, decidedSign, pConstant, qSign]

theorem decidedSign_pi (q : Rat) : decidedSign (numOfPi q) = some (qSign q) := by
  rw [numOfPi_eq]
  by_cases h : q = 0 <;> simp [h, decidedSign, pConstant, pMonomial, qSign]

theorem numLess_rat (a b : Rat) : numLess (numOfRat a) (numOfRat b) = decide (a < b) := by
  rw [numLess, numSign, numSub_rat, decidedSign_rat, Bool.eq_iff_iff]
  simp [qSign]

theorem numLess_pi (a b : Rat) : numLess (numOfPi a) (numOfPi b) = decide (a < b) := by
  rw [numLess, numSign, numSub_pi, decidedSign_pi, Bool.eq_iff_iff]
  simp [qSign]

theorem numOfInt_zero : numOfInt 0 = numOfPi 0 := by decide

theorem decidedFloor_rat (q : Rat) : decidedFloor (numOfRat q) = some ⌊q⌋ := by
  rw [numOfRat_eq]
  by_cases h : q = 0 <;> simp [h, decidedFloor, pConstant, qFloor_eq]

theorem numFloor_rat (q : Rat) : numFloor (numOfRat q) = ⌊q⌋ := by rw [numFloor, decidedFloor_rat]

/-! ### The datapath in turns -/

theorem phaseStepOf_exact {f : FreqWord} {r : RateWord} (hr : r.toNat ≠ 0) :
    phaseStepOf numExact f r = numOfPi (2 * ((f.toNat : Rat) / (65536 * r.toNat))) := by
  have hr' : ((r.toNat : Int) : Rat) ≠ 0 := by exact_mod_cast hr
  simp only [phaseStepOf, numExact, numOfInt_eq, numTwoPi_eq, numMul_pi_rat, numDiv_pi_rat _ hr', freqHz,
    Rat.mkRat_eq_div]
  congr 1
  push_cast
  rw [mul_div_assoc, div_div]

theorem half_exact : half numExact = numOfRat (1 / 2) := by
  simp [half, numExact, Rat.mkRat_eq_div]

theorem half_turns : half numTurns = 1 / 2 := by simp [half, numTurns, Rat.mkRat_eq_div]

theorem turns_exact (τ : Rat) : turns numExact (numOfPi (2 * τ)) = numOfRat τ := by
  have := numDiv_pi_pi (2 * τ) (b := 2) (by norm_num)
  simpa [turns, numExact, numTwoPi_eq] using this

theorem turns_turns (τ : Rat) : turns numTurns τ = τ := by simp [turns, numTurns]

theorem polyblepNarrow_exact (t : Rat) {dt : Rat} (h : dt ≠ 0) :
    polyblepNarrow numExact (numOfRat t) (numOfRat dt) = numOfRat (polyblepNarrow numTurns t dt) := by
  unfold polyblepNarrow
  simp only [numExact, numTurns, numOfInt_eq, numLess_rat, numDiv_rat _ h, numSub_rat, numMul_rat, numAdd_rat,
    Rat.mkRat_one]
  simp only [Bool.and_eq_true, Bool.not_eq_true', decide_eq_false_iff_not, not_lt, decide_eq_true_eq]
  split_ifs <;> rfl

theorem polyblepWide_exact (t : Rat) {dt : Rat} (h : dt ≠ 0) :
    polyblepWide numExact (numOfRat t) (numOfRat dt) = numOfRat (polyblepWide numTurns t dt) := by
  unfold polyblepWide
  simp only [half_exact, half_turns]
  simp only [numExact, numTurns, numOfInt_eq, numLess_rat, numDiv_rat _ h, numSub_rat, numMul_rat, numAdd_rat,
    Rat.mkRat_one]
  simp only [Bool.and_eq_true, Bool.not_eq_true', decide_eq_false_iff_not, not_lt, decide_eq_true_eq]
  split_ifs <;> rfl

theorem polyblep_exact (k : Kernel) (t : Rat) {dt : Rat} (h : dt ≠ 0) :
    polyblep numExact k (numOfRat t) (numOfRat dt) = numOfRat (polyblep numTurns k t dt) := by
  cases k <;> simp only [polyblep]
  · exact polyblepNarrow_exact t h
  · exact polyblepWide_exact t h

theorem halfTurnOn_exact (t : Rat) : halfTurnOn numExact (numOfRat t) = numOfRat (halfTurnOn numTurns t) := by
  unfold halfTurnOn
  simp only [half_exact, half_turns]
  simp only [numExact, numTurns, numOfInt_eq, numLess_rat, numSub_rat, numAdd_rat, Rat.mkRat_one]
  simp only [Bool.not_eq_true', decide_eq_false_iff_not, not_lt, decide_eq_true_eq]
  split_ifs <;> rfl

theorem naiveSquare_exact (τ : Rat) : naiveSquare numExact (numOfPi (2 * τ)) = numOfRat (naiveSquare numTurns τ) := by
  unfold naiveSquare
  simp only [numExact, numTurns, numOfInt_eq, numPi_eq, numLess_pi, Rat.mkRat_one]
  simp only [Rat.mkRat_eq_div]
  have : (2 * τ < 1) ↔ (τ < ((1 : Int) : Rat) / ((2 : Nat) : Rat)) := by
    push_cast; constructor <;> intro h <;> linarith
  simp only [decide_eq_true_eq, this]
  split_ifs <;> rfl

theorem genSquare_exact (k : Kernel) (τ : Rat) {δ : Rat} (h : δ ≠ 0) :
    genSquare numExact k (numOfPi (2 * τ)) (numOfPi (2 * δ)) = numOfRat (genSquare numTurns k τ δ) := by
  simp only [genSquare, turns_exact, turns_turns, naiveSquare_exact, halfTurnOn_exact, polyblep_exact k _ h]
  simp only [numExact, numTurns, numAdd_rat, numSub_rat]

theorem genSaw_exact (k : Kernel) (τ : Rat) {δ : Rat} (h : δ ≠ 0) :
    genSaw numExact k (numOfPi (2 * τ)) (numOfPi (2 * δ)) = numOfRat (genSaw numTurns k τ δ) := by
  simp only [genSaw, turns_exact, turns_turns, polyblep_exact k _ h]
  simp only [numExact, numTurns, numPi_eq, numDiv_pi_pi _ (one_ne_zero), numOfInt_eq, numSub_rat, Rat.mkRat_one]
  simp only [Rat.mkRat_eq_div]
  congr 3
  push_cast; ring

theorem advance_exact (τ δ : Rat) :
    advance numExact (numOfPi (2 * τ)) (numOfPi (2 * δ)) = numOfPi (2 * advance numTurns τ δ) := by
  simp only [advance, numExact, numTurns, numTwoPi_eq, numAdd_pi, numSub_pi, numLess_pi]
  have h1 : (2 * τ + 2 * δ < 2) ↔ ¬ (1 ≤ τ + δ) := by constructor <;> intro h <;> [linarith; linarith]
  simp only [h1, decide_not, Bool.not_not, decide_eq_true_eq]
  split_ifs <;> congr 1 <;> ring

theorem advance_turns_mem {τ δ : Rat} (h0 : 0 ≤ τ) (h1 : τ < 1) (h2 : 0 < δ) (h3 : δ < 1) :
    0 ≤ advance numTurns τ δ ∧ advance numTurns τ δ < 1 := by
  simp only [advance, numTurns, decide_eq_true_eq]
  split_ifs <;> constructor <;> linarith

theorem phaseInRange_exact (τ δ : Rat) :
    phaseInRange numExact (numOfPi (2 * τ)) (numOfPi (2 * δ))
      = (decide (0 ≤ τ) && decide (τ < 1) && decide (0 < δ) && decide (δ < 1 / 2)) := by
  simp only [phaseInRange, numExact, numOfInt_zero, numTwoPi_eq, numPi_eq, numLess_pi]
  rw [Bool.eq_iff_iff]
  simp only [Bool.and_eq_true, Bool.not_eq_true', decide_eq_true_eq, decide_eq_false_iff_not, not_lt]
  constructor <;> rintro ⟨⟨⟨a, b⟩, c⟩, d⟩ <;> refine ⟨⟨⟨?_, ?_⟩, ?_⟩, ?_⟩ <;> linarith

/-! ### The form of `PREV_OUT` -/

theorem pNormal_pCons {c : Rat} {p : List Rat} (h : pNormal p = true) : pNormal (pCons c p) = true := by
  unfold pCons
  split
  · rfl
  · rename_i hc
    cases p with
    | nil => simpa [pNormal] using hc
    | cons b q => simpa [pNormal] using h

theorem pNormal_tail {c : Rat} {p : List Rat} (h : pNormal (c :: p) = true) : pNormal p = true := by
  cases p with
  | nil => rfl
  | cons b q => simpa [pNormal] using h

theorem pNormal_pAdd {p q : List Rat} (hp : pNormal p = true) (hq : pNormal q = true) : pNormal (pAdd p q) = true := by
  induction p, q using pAdd.induct with
  | case1 q => simpa [pAdd] using hq
  | case2 p h => simpa [pAdd] using hp
  | case3 a p b q ih => exact pNormal_pCons (ih (pNormal_tail hp) (pNormal_tail hq))

theorem pNormal_pScale (c : Rat) (p : List Rat) : pNormal (pScale c p) = true := by
  induction p with
  | nil => rfl
  | cons a p ih => exact pNormal_pCons ih

theorem pNormal_pMul (p q : List Rat) : pNormal (pMul p q) = true := by
  induction p with
  | nil => rfl
  | cons a p ih => exact pNormal_pAdd (pNormal_pScale a q) (pNormal_pCons ih)

theorem pNormal_pSub {p q : List Rat} (hp : pNormal p = true) : pNormal (pSub p q) = true :=
  pNormal_pAdd hp (pNormal_pScale _ q)

/-- The Triangle value is a polynomial in its one form whenever the square value and `PREV_OUT` are polynomials. -/
theorem genTriangle_form (k : Kernel) (τ : Rat) {δ : Rat} (h : δ ≠ 0) (p : List Rat) :
    ∃ r, genTriangle numExact k (numOfPi (2 * τ)) (numOfPi (2 * δ)) (.poly p) = .poly r ∧ pNormal r = true := by
  unfold genTriangle
  simp only [genSquare_exact k τ h]
  exact ⟨_, rfl, pNormal_pAdd (pNormal_pMul _ _) (pNormal_pMul _ _)⟩

/-! ### The floor of a sample is always computed -/

/-- The sine of an angle the phase can have, as the machine forms it: rational, or a sine form. -/
theorem numSin_form {τ : Rat} (h0 : 0 ≤ τ) (h1 : τ < 1) :
    (∃ p, numSin (numOfPi (2 * τ)) = .poly p) ∨ isSineForm (numSin (numOfPi (2 * τ))) = true := by
  rw [numOfPi_eq]
  by_cases h : 2 * τ = 0
  · exact .inl ⟨_, by rw [if_pos h]; rfl⟩
  · rw [if_neg h]
    simp only [numSin, qIsZero_eq, decide_true, if_true]
    split
    · exact .inl ⟨_, rfl⟩
    · rename_i hr
      refine .inr ?_
      have hn : (2 * τ).num < 2 * ((2 * τ).den : Int) := by
        have h2 : 2 * τ < 2 := by linarith
        have hd : (0 : Rat) < ((2 * τ).den : Rat) := by exact_mod_cast (2 * τ).den_pos
        rw [← Rat.num_div_den (2 * τ), div_lt_iff₀ hd] at h2
        exact_mod_cast h2
      simp [isSineForm, hr, hn, Rat.num_nonneg, h0]

/-- Whatever is added to a scaled sample, the floor is computed. -/
theorem floorComputed_scaled {f : ExactNum} (h : (∃ p, f = .poly p) ∨ isSineForm f = true) (q : Rat) :
    floorComputed (numExact.add (scaled numExact f) (numOfRat q)) = true := by
  rcases h with ⟨p, rfl⟩ | h
  · exact floorComputed_poly _
  · have hs : ∀ q : Rat, pConstant (pCons q []) = true := by
      intro q; rw [pCons_nil]; split <;> rfl
    have hn : ∀ p, f ≠ .poly p := by rintro p rfl; simp [isSineForm] at h
    have e : numExact.add (scaled numExact f) (numOfRat q)
        = .add (.mul (.add f (numOfInt 1)) (numOfRat (mkRat 65535 2))) (numOfRat q) := by
      cases f <;> first | rfl | exact absurd rfl (hn _)
    have h1 : isSineForm (.add f (numOfInt 1)) = true := by
      simp only [numOfInt, numOfRat, isSineForm, h, hs, Bool.and_self]
    have h2 : isSineForm (.mul (.add f (numOfInt 1)) (numOfRat (mkRat 65535 2))) = true := by
      have : (pCons (mkRat 65535 2) []).all qIsZero = false := by decide
      rw [numOfRat, isSineForm, h1, hs, this]; rfl
    have h3 : isSineForm (.add (.mul (.add f (numOfInt 1)) (numOfRat (mkRat 65535 2))) (numOfRat q)) = true := by
      rw [numOfRat, numOfRat, isSineForm, hs]
      rw [numOfRat] at h2
      rw [h2]; rfl
    rw [e]
    simp [floorComputed, isIrrational, h3]

/-- The floors that a sample takes of the value of the generator are all computed. -/
theorem floorComputed_sample {s : State} (h : hasOscillator s) (q : Rat) :
    floorComputed (numExact.add
      (scaled numExact (generate numExact s.mode s.kernel s.phase s.phaseStep s.prevOut)) (numOfRat q)) = true := by
  obtain ⟨⟨hr, hf, hn⟩, hs, ⟨τ, h0, h1, hp⟩, ⟨p, hpo, -⟩⟩ := h
  have hd : ((s.freqRaw.toNat : Rat) / (65536 * s.sampleRate.toNat)) ≠ 0 := by
    have : (0 : Rat) < s.freqRaw.toNat := by exact_mod_cast hf
    have : (0 : Rat) < s.sampleRate.toNat := by exact_mod_cast hr
    positivity
  rw [hs, phaseStepOf_exact hr.ne', hp, hpo]
  refine floorComputed_scaled ?_ q
  cases s.mode with
  | sine => exact numSin_form h0 h1
  | square => exact .inl ⟨_, genSquare_exact s.kernel τ hd⟩
  | saw => exact .inl ⟨_, genSaw_exact s.kernel τ hd⟩
  | triangle => obtain ⟨r, hr, -⟩ := genTriangle_form s.kernel τ hd p; exact .inl ⟨r, hr⟩

end Sys2Proof.Machine
end

