-- ==== Sys2Proof/Tests/Slice0.lean ====
section
/-! SUPPORT. Tests: words written out from the spec's encodings, ill-formed terms that the checks refuse, one step of
each command with the result the spec's vectors give (spec/95_test_vectors.md), and for each statement with hypotheses
a witness that meets them all. -/

namespace Sys2Proof.Tests

open Sys2Proof Sys2Proof.Machine

/-! ### Decoding (vectors V1, rules R71 and R85) -/

/-- `op` in bits 63:56 and a payload, written out in two parts. -/
def word (op arg : Nat) : CommandWord := BitVec.ofNat 64 (op * 2 ^ 56 + arg)

theorem test_decode_nop : decode 0x0000000000000000#64 = .ok .nop := by decide
theorem test_decode_reset : decode 0x0100000000000000#64 = .ok .reset := by decide
theorem test_decode_ldrate : decode 0x020000000000AC44#64 = .ok (.ldrate 44100#32) := by decide
theorem test_decode_ldrate_largest : decode 0x02000000FFFFFFFF#64 = .ok (.ldrate 4294967295#32) := by decide
theorem test_decode_ldfreq : decode 0x030000000105A000#64 = .ok (.ldfreq 17145856#48) := by decide
theorem test_decode_ldfreq_largest : decode 0x0300FFFFFFFFFFFF#64 = .ok (.ldfreq 281474976710655#48) := by decide
theorem test_decode_init :
    [0, 1, 2, 3].map (fun m => decode (word 0x04 m))
      = [.ok (.init .sine), .ok (.init .square), .ok (.init .saw), .ok (.init .triangle)] := by decide
theorem test_decode_setmode : decode 0x0500000000000002#64 = .ok (.setmode .saw) := by decide
theorem test_decode_setkern :
    [0, 1].map (fun k => decode (word 0x06 k)) = [.ok (.setkern .narrow), .ok (.setkern .wide)] := by decide
theorem test_decode_setq :
    [0, 1].map (fun q => decode (word 0x07 q)) = [.ok (.setq .round), .ok (.setq .dither)] := by decide
theorem test_decode_seed : decode 0x0800000012345678#64 = .ok (.seed 0x12345678#32) := by decide
theorem test_decode_fill : decode 0x0900000000000064#64 = .ok (.fill 100#32) := by decide

theorem test_decode_unused_opcodes :
    [0x0A00000000000000#64, 0x8000000000000000#64, 0xFFFFFFFFFFFFFFFF#64].map decode
      = [.error .unusedOpcode, .error .unusedOpcode, .error .unusedOpcode] := by decide
/-- The lowest reserved bit of each command of R71. -/
theorem test_decode_reserved_bits :
    [word 0 1, word 1 1, word 2 (2 ^ 32), word 3 (2 ^ 48), word 4 4, word 5 4, word 6 2, word 7 2, word 8 (2 ^ 32),
        word 9 (2 ^ 32)].all (fun w => decide (decode w = .error .reservedBit)) = true := by decide

theorem test_word_bytes : wordBytes 0x0300000001B80000#64 = [0x00#8, 0x00#8, 0xB8#8, 0x01#8, 0#8, 0#8, 0#8, 3#8] := by
  decide
theorem test_decode_table_word : decodeTableWord 64 0x0300000001B80000 = some (.ldfreq 28835840#48) := by decide
theorem test_out_bytes :
    outBytes { State.reset with out := [0#16, 0x0804#16, BitVec.ofInt 16 (-2519)] }
      = [0x00#8, 0x00#8, 0x04#8, 0x08#8, 0x29#8, 0xF6#8] := by decide

/-! ### Well-formedness: an ill-formed term for each check -/

theorem test_word_wellFormed : CommandWord.wellFormed 0x0300000001B80000#64 = true := by decide
theorem test_word_unused_opcode_refused : CommandWord.wellFormed 0x0A00000000000000#64 = false := by decide
theorem test_word_reserved_bit_refused :
    [word 0 1, word 1 1, word 2 (2 ^ 32), word 3 (2 ^ 48), word 4 4, word 5 4, word 6 2, word 7 2, word 8 (2 ^ 32),
        word 9 (2 ^ 32)].all (fun w => !CommandWord.wellFormed w) = true := by decide
theorem test_asm_wellFormed : (AsmLine.config 44100 440 .sine).wellFormed = true := by decide
theorem test_asm_rate_refused : (AsmLine.ldrate 4294967296).wellFormed = false := by decide
theorem test_asm_negative_frequency_refused : (AsmLine.ldfreq (-1)).wellFormed = false := by decide
theorem test_asm_large_frequency_refused : (AsmLine.ldfreq 4294967296).wellFormed = false := by decide
theorem test_asm_fraction_refused : (AsmLine.ldfreq (mkRat 26163 100)).wellFormed = false := by decide
theorem test_asm_seed_refused : (AsmLine.seed 4294967296).wellFormed = false := by decide
theorem test_asm_fill_refused : (AsmLine.fill 4294967296).wellFormed = false := by decide
theorem test_asm_config_rate_refused : (AsmLine.config 4294967296 440 .sine).wellFormed = false := by decide
theorem test_asm_config_frequency_refused : (AsmLine.config 44100 (mkRat 1 3) .sine).wellFormed = false := by decide

/-- The example of R84, as text with a comment. -/
theorem test_asm_config_text :
    assemble "CONFIG 44100, 440, SINE ; a tone\n\nFILL 0x64".toList
      = some [0x020000000000AC44#64, 0x0300000001B80000#64, 0x0400000000000000#64, 0x0900000000000064#64] := by decide
/-- 261.625 Hz (R77) is a multiple of 1/65536 Hz, 261.63 Hz is not. -/
theorem test_asm_frequency_text :
    assemble "LDFREQ 261.625".toList = some [0x030000000105A000#64] ∧ assemble "LDFREQ 261.63".toList = none := by
  decide

/-! ### One step of each command (vectors V2, V5, V9, V14, V15) -/

/-- A field of the next state. -/
def after {α β : Type} (r : Result α) (f : State α → β) : Option β :=
  match r with
  | .next t => some (f t)
  | .fault _ => none
  | .refused _ => none

/-- A core as `CONFIG 8, 1` leaves it, with a mode, a policy, samples owed, and the seed 1. -/
def playing (m : Mode) (q : QPolicy) (n : CountWord) : State :=
  { State.reset with
    mode := m, sampleRate := 8#32, freqRaw := 65536#48, phaseStep := .poly [0, mkRat 1 4], qpolicy := q,
    rng := 1#32, remain := n, configured := true, seeded := true }

/-- The same, its phase a given number of quarters of π. -/
def playingAt (m : Mode) (q : QPolicy) (quarters : Nat) : State :=
  { playing m q 1#32 with phase := numOfPi (mkRat quarters 4) }

/-- A core after `LDRATE 8` and `LDFREQ` of a field. -/
def loaded (f : FreqWord) : State := { State.reset with sampleRate := 8#32, freqRaw := f }

/-- A core on which a command has failed. -/
def failed : State := { State.reset with err := .illegalCmd }

/-- One step on a word, and what `STATUS` shows after it. -/
def statusAfter (s : State) (w : Nat) : Option StatusWord := after (step (s.withFetchWord 64 w)) status

theorem test_nop : after (step (failed.withFetchWord 64 0)) id = some failed := by decide
theorem test_reset_faulted : statusAfter failed 0x0100000000000000 = some 0#32 := by decide
theorem test_reset_reserved_bit : statusAfter failed 0x0100000000000001 = some 0x180#32 := by decide
theorem test_ldrate :
    after (step (State.reset.withFetchWord 64 0x0200000000000008)) (·.sampleRate) = some 8#32 := by decide
theorem test_ldrate_configured : statusAfter (playing .sine .round 0#32) 0x0200000000000009 = some 0x3B0#32 := by decide
theorem test_ldfreq :
    after (step (State.reset.withFetchWord 64 0x0300000000010000)) (·.freqRaw) = some 65536#48 := by decide
theorem test_init :
    after (step ((loaded 65536#48).withFetchWord 64 0x0400000000000001)) (fun t => (t.phaseStep, status t))
      = some (.poly [0, mkRat 1 4], 0x11#32) := by decide
/-- Exactly half the rate is refused; one unit below it is not. -/
theorem test_init_nyquist :
    statusAfter (loaded 262144#48) 0x0400000000000000 = some 0x580#32
      ∧ statusAfter (loaded 262143#48) 0x0400000000000000 = some 0x10#32
      ∧ statusAfter State.reset 0x0400000000000000 = some 0x480#32 := by decide
theorem test_setmode : statusAfter (playing .square .round 0#32) 0x0500000000000002 = some 0x32#32 := by decide
theorem test_setmode_not_configured : statusAfter State.reset 0x0500000000000001 = some 0x280#32 := by decide
theorem test_setkern : statusAfter State.reset 0x0600000000000001 = some 0x4#32 := by decide
theorem test_setq : statusAfter State.reset 0x0700000000000001 = some 0x8#32 := by decide
theorem test_seed :
    after (step (State.reset.withFetchWord 64 0x0800000000000001)) (fun t => (t.rng, status t))
      = some (1#32, 0x20#32) := by decide
theorem test_fill_busy :
    after (step ((playing .saw .round 0#32).withFetchWord 64 0x0900000000000064)) (fun t => (t.remain, t.out))
      = some (100#32, []) := by decide
theorem test_fill_no_seed :
    statusAfter { playing .saw .dither 0#32 with seeded := false } 0x0900000000000008 = some 0x69A#32 := by decide
theorem test_illegal_word : statusAfter State.reset 0x0A00000000000000 = some 0x180#32 := by decide
theorem test_reset_input :
    after (step { playing .saw .round 5#32 with rst := [true] }) id = some State.reset := by decide

/-- The sample of V5 at the phase `2π·3/8`. -/
theorem test_sample_saw :
    after (step (playingAt .saw .round 3)) (fun t => (t.out, t.remain)) = some ([BitVec.ofInt 16 (-8192)], 0#32) := by
  decide +kernel
/-- V3: from `2π·7/8` by `2π·1/8` to exactly 0. -/
theorem test_sample_wraps : after (step (playingAt .saw .round 7)) (·.phase) = some (.poly []) := by decide +kernel
/-- V5, n = 0, the wide kernel. -/
theorem test_sample_square_wide :
    after (step { playing .square .round 1#32 with kernel := .wide }) (·.out) = some [BitVec.ofInt 16 16383] := by
  decide +kernel
/-- V9: `sin (π/4)`. -/
theorem test_sample_sine : after (step (playingAt .sine .round 1)) (·.out) = some [BitVec.ofInt 16 23170] := by
  decide +kernel
/-- V11, n = 1: the value is `π/4`. -/
theorem test_sample_triangle :
    after (step (playingAt .triangle .round 1)) (fun t => (t.out, t.prevOut))
      = some ([BitVec.ofInt 16 25735], .poly [0, mkRat 1 4]) := by decide +kernel
/-- The example of R162. -/
theorem test_sample_dither :
    after (step (playing .square .dither 1#32)) (fun t => (t.out, t.rng))
      = some ([BitVec.ofInt 16 (-1)], 0x00042021#32) := by decide +kernel
/-- V15. -/
theorem test_xs32 :
    (xs32Next 0x12345678#32, xs32Next 0xFFFFFFFF#32, (xs32Next 1#32).toNat / 256)
      = (0x87985AA5#32, 0x0003E01F#32, 1056) := by decide

/-! ### Other parameters: the turns form of R13 for `NUM`, a counter for `RNG_FN` -/

/-- Rationals in place of the reals, and draws that count: `1/4` after each state. -/
def turnsParams : Params Rat := { num := numTurns, rng := fun s => (s + 1#32, mkRat 1 4) }

/-- A core as `CONFIG 8, 1` leaves it, angles in turns, at the phase `3/8`, with one sample owed. -/
def turnsState (q : QPolicy) : State Rat :=
  { State.resetTo (0 : Rat) with
    mode := .saw, sampleRate := 8#32, freqRaw := 65536#48, phase := mkRat 3 8, phaseStep := mkRat 1 8, qpolicy := q,
    remain := 1#32, configured := true, seeded := true }

/-- V5 again, now in turns, and the generator of the parameters drawn from: `24575.625 + 1/4 - 32768`. -/
theorem test_other_parameters :
    (after (stepOf turnsParams (turnsState .round)) (fun t => (t.out, t.phase, t.rng))
        = some ([BitVec.ofInt 16 (-8192)], mkRat 1 2, 0#32))
      ∧ after (stepOf turnsParams (turnsState .dither)) (fun t => (t.out, t.phase, t.rng))
        = some ([BitVec.ofInt 16 (-8193)], mkRat 1 2, 1#32) := by decide +kernel

/-! ### Witnesses: concrete states and operands that meet all the hypotheses of a statement -/

theorem playing_inv (m : Mode) (q : QPolicy) (n : CountWord) : MachineInv (playing m q n) := by
  have hs : ExactNum.poly [0, mkRat 1 4] = phaseStepOf numExact 65536#48 8#32 := by decide
  refine ⟨fun _ => ⟨⟨?_, ?_, ?_⟩, hs, ⟨0, by norm_num, by norm_num, ?_⟩, ⟨[], rfl, rfl⟩⟩,
    fun h => ?_, fun _ => ⟨rfl, fun _ => rfl⟩, fun h => ?_⟩
  · show 0 < (8#32).toNat; decide
  · show 0 < (65536#48).toNat; decide
  · show 2 * (65536#48).toNat < (8#32).toNat * 65536; decide
  · rw [mul_zero]; rfl
  · exact absurd h (by simp [playing])
  · exact absurd h (by simp [playing])

theorem failed_inv : MachineInv failed := by
  refine ⟨fun h => ?_, fun _ => ⟨rfl, rfl, rfl, rfl, rfl, rfl⟩, fun h => ?_, fun _ => rfl⟩
  · exact absurd h (by decide)
  · exact absurd h (by decide)

/-- An idle core with one word presented. -/
def presented (s : State) (w : CommandWord) : State := { s with cmd := [w] }

/-- The same core with one quiet level of the reset input still listed. -/
def quiet (s : State) : State := { s with rst := [false] }

theorem witness_IllegalWordsRaise :
    (∃ e, decode 0x0A00000000000000#64 = .error e) ∧ (∃ e, decode (word 9 (2 ^ 32)) = .error e)
      ∧ (presented State.reset (word 10 0)).err = .none ∧ (presented failed (word 10 0)).err ≠ .none
      ∧ (presented failed (word 10 0)).remain = 0#32 ∧ (presented failed (word 10 0)).rst.head? ≠ some true
      ∧ (quiet (presented failed (word 10 0))).rst.head? ≠ some true :=
  ⟨⟨.unusedOpcode, by decide⟩, ⟨.reservedBit, by decide⟩, rfl, by decide, rfl, by decide, by decide⟩

theorem witness_CommandBytesAreLittleEndian : (0 : Nat) < 8 ∧ (7 : Nat) < 8 := by decide

theorem witness_SampleBytesAreLittleEndian :
    ({ State.reset with out := [0#16, 0x0804#16] } : State).out[1]? = some 0x0804#16 := by decide

/-- The three clauses, at the ends of the ranges: 4294967295 and the frequency 0; 4294967296; and 1/3 Hz. -/
theorem witness_AssemblerChecksItsOperands :
    ((∀ g : Rat, (AsmLine.config 4294967295 0 .sine = .ldfreq g ∨ ∃ r m, AsmLine.config 4294967295 0 .sine = .config r g m) →
          g = ((0 : Nat) : Rat) / 65536)
        ∧ ∀ n, (AsmLine.config 4294967295 0 .sine = .ldrate n ∨ AsmLine.config 4294967295 0 .sine = .seed n
          ∨ AsmLine.config 4294967295 0 .sine = .fill n ∨ ∃ g m, AsmLine.config 4294967295 0 .sine = .config n g m) →
          n ≤ 4294967295)
      ∧ 4294967295 < 4294967296
      ∧ ∀ f : Nat, f < 2 ^ 48 → (1 / 3 : Rat) ≠ (f : Rat) / 65536 := by
  refine ⟨⟨?_, ?_⟩, by decide, fun f _ h => ?_⟩
  · rintro g (h | ⟨r, m, h⟩) <;> cases h; norm_num
  · rintro n (h | h | h | ⟨g, m, h⟩) <;> cases h; decide
  · have h' : (65536 : Rat) = ((3 * f : Nat) : Rat) := by push_cast; linarith
    have : 65536 = 3 * f := by exact_mod_cast h'
    omega

theorem witness_StepRunsTheDecodedCommand :
    (presented State.reset (word 1 0)).remain = 0#32 ∧ decode (word 1 0) = .ok .reset
      ∧ (presented State.reset (word 1 0)).rst = []
      ∧ ({ presented State.reset (word 1 0) with rst := [false] } : State).rst = false :: [] := by decide

theorem witness_IdleCoreKeepsItsState :
    (playing .saw .round 0#32).rst.head? ≠ some true ∧ (quiet (playing .saw .round 0#32)).rst.head? ≠ some true
      ∧ (playing .saw .round 0#32).remain = 0#32 ∧ (playing .saw .round 0#32).cmd = [] := by decide

theorem witness_BusyCoreBecomesIdle :
    MachineInv (quiet (playing .saw .round 2#32)) ∧ (∀ b ∈ (quiet (playing .saw .round 2#32)).rst, b = false)
      ∧ (playing .saw .round 2#32).remain.toNat = 2 :=
  ⟨playing_inv _ _ _, by decide, rfl⟩

theorem witness_BothResetsResetEverything :
    ({ playing .saw .round 5#32 with rst := [true] } : State).rst = true :: [] ∧ decode (word 1 0) = .ok .reset
      ∧ (presented failed (word 1 0)).rst.head? ≠ some true ∧ (presented failed (word 1 0)).remain = 0#32
      ∧ (quiet (presented failed (word 1 0))).rst.head? ≠ some true := by decide

/-- With the last sample and with one before it. -/
theorem witness_SampleStepChangesOnlyBusy :
    (∃ t, sampleStep chip (playing .square .round 1#32) = .next t) ∧ (∃ t, sampleStep chip (playing .square .round 2#32) = .next t)
      ∧ (2#32 : CountWord) ≠ 0#32 ∧ (2#32 : CountWord) ≠ 1#32 :=
  ⟨⟨_, if_pos (by decide)⟩, ⟨_, if_pos (by decide)⟩, by decide, by decide⟩

theorem witness_LoadsBeforeInitOnly :
    State.reset.err = .none ∧ State.reset.configured = false
      ∧ (playing .saw .round 0#32).err = .none ∧ (playing .saw .round 0#32).configured = true := by decide

/-- Its five clauses: at the largest frequency admitted for the rate 8, after an INIT, with the rate 0, with the
frequency 0, and at exactly half the rate (V2). -/
theorem witness_InitCreatesTheOscillator :
    ((loaded 262143#48).err = .none ∧ (loaded 262143#48).configured = false
        ∧ admitted (loaded 262143#48).freqRaw (loaded 262143#48).sampleRate)
      ∧ ((playing .saw .round 0#32).err = .none ∧ (playing .saw .round 0#32).configured = true)
      ∧ (State.reset.err = .none ∧ State.reset.configured = false ∧ State.reset.sampleRate.toNat = 0)
      ∧ ((loaded 0#48).err = .none ∧ (loaded 0#48).configured = false ∧ (loaded 0#48).sampleRate.toNat ≠ 0
          ∧ (loaded 0#48).freqRaw.toNat = 0)
      ∧ (loaded 262144#48).err = .none ∧ (loaded 262144#48).configured = false
      ∧ (loaded 262144#48).sampleRate.toNat ≠ 0 ∧ (loaded 262144#48).freqRaw.toNat ≠ 0
      ∧ (loaded 262144#48).sampleRate.toNat * 65536 ≤ 2 * (loaded 262144#48).freqRaw.toNat :=
  ⟨⟨rfl, rfl, by decide, by decide, by decide⟩, by decide⟩

theorem witness_SetmodeWritesModeOnly :
    (playing .saw .round 0#32).err = .none ∧ (playing .saw .round 0#32).configured = true
      ∧ State.reset.err = .none ∧ State.reset.configured = false := by decide

theorem witness_OptionsAreAlwaysLegal : State.reset.err = .none ∧ (playing .saw .round 0#32).err = .none := by decide

theorem witness_FillCommandEffect :
    ((playing .saw .dither 0#32).err = .none ∧ (playing .saw .dither 0#32).configured = true
        ∧ ((playing .saw .dither 0#32).qpolicy = .dither → (playing .saw .dither 0#32).seeded = true))
      ∧ State.reset.configured = false
      ∧ (let s := { playing .saw .dither 0#32 with seeded := false }
         s.err = .none ∧ s.configured = true ∧ s.qpolicy = .dither ∧ s.seeded = false) := by decide

theorem witness_FillZeroChangesNothing :
    (playing .saw .dither 0#32).err = .none ∧ (playing .saw .dither 0#32).remain = 0#32
      ∧ (playing .saw .dither 0#32).configured = true
      ∧ ((playing .saw .dither 0#32).qpolicy = .dither → (playing .saw .dither 0#32).seeded = true) := by decide

theorem witness_ErrorOfEveryWord :
    (State.reset.err = .none ∧ errorOfWord (word 4 0) State.reset = .badRate) ∧ failed.err ≠ .none
      ∧ ∃ t, sampleStep chip (playing .square .round 1#32) = .next t :=
  ⟨⟨rfl, by decide⟩, by decide, ⟨_, if_pos (by decide)⟩⟩

theorem witness_FailingCommandWritesErrOnly :
    State.reset.err = .none ∧ ∃ t, command exec (word 4 0) State.reset = .next t ∧ t.err ≠ .none :=
  ⟨rfl, { State.reset with err := .badRate }, rfl, by decide⟩

theorem witness_FaultedCoreIgnoresAllButReset :
    failed.err ≠ .none ∧ failed.rst.head? ≠ some true ∧ failed.remain = 0#32 ∧ decode (word 1 1) ≠ .ok .reset
      ∧ decode (word 1 0) = .ok .reset ∧ MachineInv failed :=
  ⟨by decide, by decide, rfl, by decide, by decide, failed_inv⟩

theorem witness_OnlyResetLeavesTheFaultedState :
    failed.err ≠ .none ∧ step (presented failed (word 1 0)) = .next State.reset
      ∧ State.reset.err ≠ (presented failed (word 1 0)).err := by
  refine ⟨by decide, ?_, by decide⟩
  rfl

/-- A command that is not FILL, and a FILL. -/
theorem witness_CommandsProduceNoSamples :
    State.reset.remain = 0#32 ∧ (∃ t, exec (.seed 1#32) State.reset = .next t) ∧ (∀ n, Instr.seed 1#32 ≠ .fill n)
      ∧ Instr.seed 1#32 ≠ .reset ∧ (∃ t, exec (.fill 3#32) (playing .saw .round 0#32) = .next t) :=
  ⟨rfl, ⟨_, rfl⟩, by simp, by decide, ⟨_, rfl⟩⟩

/-- In Triangle under Dither with the last sample, and in Saw under Round with the largest count and a quiet level. -/
theorem witness_SampleStepEffect :
    (MachineInv (playing .triangle .dither 1#32) ∧ (playing .triangle .dither 1#32).remain ≠ 0#32)
      ∧ (playing .triangle .dither 1#32).rst.head? ≠ some true
      ∧ MachineInv (quiet (playing .saw .round 4294967295#32)) ∧ (playing .saw .round 4294967295#32).remain ≠ 0#32
      ∧ (quiet (playing .saw .round 4294967295#32)).rst.head? ≠ some true :=
  ⟨⟨playing_inv _ _ _, by decide⟩, by decide, playing_inv _ _ _, by decide, by decide⟩

/-- A phase of exactly `2π`. -/
theorem witness_OutsideThePreconditionRefused :
    (playingAt .saw .round 8).rst.head? ≠ some true ∧ (playingAt .saw .round 8).remain ≠ 0#32
      ∧ phaseInRange numExact (playingAt .saw .round 8).phase (playingAt .saw .round 8).phaseStep = false := by decide

theorem witness_BigFillEqualsSampleSteps :
    MachineInv (playing .saw .dither 0#32) ∧ (playing .saw .dither 0#32).configured = true
      ∧ (playing .saw .dither 0#32).remain = 0#32 ∧ (playing .saw .dither 0#32).err = .none
      ∧ ((playing .saw .dither 0#32).qpolicy = .dither → (playing .saw .dither 0#32).seeded = true) :=
  ⟨playing_inv _ _ _, rfl, rfl, rfl, fun _ => rfl⟩

/-- At the largest sum of the two counts. -/
theorem witness_CallSplitting :
    MachineInv (playing .saw .dither 0#32) ∧ (playing .saw .dither 0#32).configured = true
      ∧ (playing .saw .dither 0#32).err = .none ∧ (playing .saw .dither 0#32).remain = 0#32
      ∧ (playing .saw .dither 0#32).rst = []
      ∧ ((playing .saw .dither 0#32).qpolicy = .dither → (playing .saw .dither 0#32).seeded = true)
      ∧ (4294967294#32).toNat + (1#32).toNat ≤ 4294967295 :=
  ⟨playing_inv _ _ _, rfl, rfl, rfl, rfl, fun _ => rfl, by decide⟩

theorem witness_PhaseAfterSamples :
    MachineInv (playing .saw .round 0#32) ∧ (playing .saw .round 0#32).configured = true ∧ (0 : Rat) ≤ 0 ∧ (0 : Rat) < 1
      ∧ (playing .saw .round 0#32).phase = numOfPi (2 * 0) :=
  ⟨playing_inv _ _ _, rfl, le_refl _, by norm_num, by rw [mul_zero]; rfl⟩

theorem witness_StepKeepsInvariant :
    MachineInv (playing .square .round 1#32) ∧ (∃ t, step (playing .square .round 1#32) = .next t)
      ∧ MachineInv failed ∧ ∃ t, step (presented failed (word 1 0)) = .next t :=
  ⟨playing_inv _ _ _, ⟨_, show sampleStep chip (playing .square .round 1#32) = _ from if_pos (by decide)⟩, failed_inv,
    ⟨_, rfl⟩⟩

theorem witness_InvariantStatesNeverStop : MachineInv (playing .triangle .dither 4294967295#32) := playing_inv _ _ _

theorem witness_PhaseAndStepStayInRange :
    MachineInv (playing .sine .round 0#32) ∧ (playing .sine .round 0#32).configured = true := ⟨playing_inv _ _ _, rfl⟩

/-- A step that keeps the lifetime, and a reset that ends it. -/
theorem witness_ConfigurationIsFixedForTheLifetime :
    (playing .saw .round 0#32).configured = true
      ∧ (∃ t, step (presented (playing .saw .round 0#32) (word 5 1)) = .next t ∧ t.configured = true)
      ∧ ∃ t, step (presented (playing .saw .round 0#32) (word 1 0)) = .next t ∧ t.configured = false :=
  ⟨rfl, ⟨_, rfl, rfl⟩, ⟨_, rfl, rfl⟩⟩

/-- Each of the three cases occurs. -/
theorem witness_OutputIsAppendOnly :
    (∃ t, step (playing .square .round 1#32) = .next t ∧ t.out.length = 1) ∧ step State.reset = .next State.reset
      ∧ step (presented { failed with out := [1#16] } (word 1 0)) = .next State.reset :=
  ⟨⟨_, show sampleStep chip (playing .square .round 1#32) = _ from if_pos (by decide), rfl⟩, rfl, rfl⟩

/-- The smallest frequency at the highest rate, and the largest for the rate 8. -/
theorem witness_PhaseStepFormula : admitted 1#48 4294967295#32 ∧ admitted 262143#48 8#32 :=
  ⟨⟨by decide, by decide, by decide⟩, ⟨by decide, by decide, by decide⟩⟩

/-- Below the wrap from 0, exactly at it, and above it. -/
theorem witness_AdvanceWraps :
    (0 ≤ (0 : ℝ) ∧ (0 : ℝ) < 2 * Real.pi ∧ 0 < (1 : ℝ) ∧ (1 : ℝ) < 2 * Real.pi ∧ (0 : ℝ) + 1 < 2 * Real.pi)
      ∧ (0 ≤ Real.pi ∧ Real.pi < 2 * Real.pi ∧ 0 < Real.pi ∧ 2 * Real.pi ≤ Real.pi + Real.pi)
      ∧ (0 ≤ (6 : ℝ) ∧ (6 : ℝ) < 2 * Real.pi ∧ 2 * Real.pi ≤ (6 : ℝ) + 1) := by
  have h1 := Real.pi_gt_three
  have h2 := Real.pi_lt_d2
  refine ⟨⟨?_, ?_, ?_, ?_, ?_⟩, ⟨?_, ?_, ?_, ?_⟩, ⟨?_, ?_, ?_⟩⟩ <;> linarith

theorem witness_PhaseWrapProperty :
    0 ≤ (0 : ℝ) ∧ (0 : ℝ) < 2 * Real.pi ∧ 0 < (6 : ℝ) ∧ (6 : ℝ) < 2 * Real.pi := by
  have h1 := Real.pi_gt_three
  refine ⟨?_, ?_, ?_, ?_⟩ <;> linarith

/-- Each case of the two kernels, at the ends of the windows (V4). -/
theorem witness_KernelFormulas :
    0 < (1 / 8 : ℝ) ∧ (0 ≤ (0 : ℝ) ∧ (0 : ℝ) < 1 / 8) ∧ ¬ ((1 / 8 : ℝ) < 1 / 8) ∧ ¬ (1 - 1 / 8 < (7 / 8 : ℝ))
      ∧ 1 - 1 / 8 < (127 / 128 : ℝ) := by norm_num

/-- At the phase 0 and at the phase `π`, where the square changes sign. -/
theorem witness_GeneratorFormulas :
    (0 ≤ (0 : ℝ) ∧ (0 : ℝ) < 2 * Real.pi) ∧ (0 ≤ Real.pi ∧ Real.pi < 2 * Real.pi ∧ ¬ Real.pi < Real.pi)
      ∧ 0 < (1 : ℝ) ∧ (1 : ℝ) < Real.pi := by
  have h1 := Real.pi_gt_three
  refine ⟨⟨?_, ?_⟩, ⟨?_, ?_, ?_⟩, ?_, ?_⟩ <;> linarith

/-- At both ends of the interval. -/
theorem witness_CorrectorZeroOutsideTheWindows :
    (0 < (1 / 8 : ℝ) ∧ (1 / 8 : ℝ) < 1 / 2 ∧ (1 / 8 : ℝ) ≤ 1 / 8 ∧ (1 / 8 : ℝ) ≤ 1 - 1 / 8)
      ∧ (1 / 8 : ℝ) ≤ 7 / 8 ∧ (7 / 8 : ℝ) ≤ 1 - 1 / 8 := by norm_num

/-- In each window, at the start of the first and just below the end of the second (V4). -/
theorem witness_NarrowKernelRange :
    (0 < (1 / 8 : ℝ) ∧ (1 / 8 : ℝ) < 1 / 2) ∧ (0 ≤ (0 : ℝ) ∧ (0 : ℝ) < 1 / 8 ∧ (0 : ℝ) < 1 / 32 ∧ (1 / 32 : ℝ) < 1 / 8)
      ∧ 1 - 1 / 8 < (57 / 64 : ℝ) ∧ (57 / 64 : ℝ) < 1 ∧ (57 / 64 : ℝ) < 127 / 128 ∧ (127 / 128 : ℝ) < 1 := by norm_num

/-- Each plateau at its two ends. -/
theorem witness_SquareAndSawCorners :
    (0 < (1 : ℝ) ∧ (1 : ℝ) < Real.pi) ∧ ((1 : ℝ) ≤ 1 ∧ (1 : ℝ) ≤ Real.pi - 1)
      ∧ ((1 : ℝ) ≤ Real.pi - 1 ∧ Real.pi - 1 ≤ Real.pi - 1)
      ∧ (Real.pi + 1 ≤ Real.pi + 1 ∧ Real.pi + 1 ≤ 2 * Real.pi - 1)
      ∧ ((1 : ℝ) ≤ 2 * Real.pi - 1 ∧ 2 * Real.pi - 1 ≤ 2 * Real.pi - 1) := by
  have h1 := Real.pi_gt_three
  refine ⟨⟨?_, ?_⟩, ⟨?_, ?_⟩, ⟨?_, ?_⟩, ⟨?_, ?_⟩, ⟨?_, ?_⟩⟩ <;> linarith

/-- With overlapping windows: a step of 3, almost `π`. -/
theorem witness_GeneratorRanges :
    0 ≤ (0 : ℝ) ∧ (0 : ℝ) < 2 * Real.pi ∧ 0 < (3 : ℝ) ∧ (3 : ℝ) < Real.pi := by
  have h1 := Real.pi_gt_three
  refine ⟨?_, ?_, ?_, ?_⟩ <;> linarith

theorem witness_TriangleStaysBoundedForSmallSteps :
    MachineInv (playing .triangle .round 1#32) ∧ (playing .triangle .round 1#32).configured = true
      ∧ toReal (playing .triangle .round 1#32).phaseStep ≤ 1 ∧ |toReal (playing .triangle .round 1#32).prevOut| ≤ 1
      ∧ ∃ t, sampleStep chip (playing .triangle .round 1#32) = .next t := by
  refine ⟨playing_inv _ _ _, rfl, ?_, ?_, ⟨_, if_pos (by decide)⟩⟩
  · have h2 := Real.pi_le_four
    simp only [playing, toReal, polyReal, Rat.mkRat_eq_div]
    push_cast
    linarith
  · simp [playing, State.reset, polyReal]

/-- The example of R166. -/
theorem witness_RandomSourceRule :
    0x2001 = (1#32).toNat ^^^ ((1#32).toNat * 2 ^ 13 % 2 ^ 32) ∧ 0x2001 = 0x2001 ^^^ (0x2001 / 2 ^ 17)
      ∧ 0x42021 = 0x2001 ^^^ (0x2001 * 2 ^ 5 % 2 ^ 32) := by decide

/-- At both ends, with the smallest and the largest draw of `XS32`. -/
theorem witness_QuantizerRange :
    (-1 ≤ (-1 : ℝ) ∧ (-1 : ℝ) ≤ 1) ∧ (-1 ≤ (1 : ℝ) ∧ (1 : ℝ) ≤ 1) ∧ ((0 : Rat) ≤ 0 ∧ (0 : Rat) < 1)
      ∧ (0 : Rat) ≤ 16777215 / 16777216 ∧ (16777215 / 16777216 : Rat) < 1 := by norm_num

/-- A scaled sample that is an integer (`f = 1`), with the largest draw. -/
theorem witness_DitherTwoValues :
    (0 : Rat) ≤ 16777215 / 16777216 ∧ (16777215 / 16777216 : Rat) < 1
      ∧ ((1 : ℝ) + 1) * (65535 / 2) = ((65535 : ℤ) : ℝ) := by norm_num

/-- INIT's premises and the sample step's, on the turns form, whose number system and generator are not the chip's. -/
theorem witness_ModelTakesItsParameters :
    ((loaded 65536#48).err = .none ∧ (loaded 65536#48).configured = false
        ∧ admitted (loaded 65536#48).freqRaw (loaded 65536#48).sampleRate)
      ∧ (turnsState .dither).rst.head? ≠ some true
      ∧ ({ turnsState .dither with rst := [false] } : State Rat).rst.head? ≠ some true ∧ (turnsState .dither).remain ≠ 0#32
      ∧ phaseInRange turnsParams.num (turnsState .dither).phase (turnsState .dither).phaseStep = true :=
  ⟨⟨rfl, rfl, by decide, by decide, by decide⟩, by decide, by decide, by decide, by decide +kernel⟩

theorem witness_SampleIsRealArithmetic :
    MachineInv (playing .sine .round 1#32) ∧ (playing .sine .round 1#32).configured = true := ⟨playing_inv _ _ _, rfl⟩

theorem witness_StepIsTheRealMachine : MachineInv (playing .triangle .dither 1#32) ∧ MachineInv failed :=
  ⟨playing_inv _ _ _, failed_inv⟩

theorem witness_SquareAndSawAreDecided :
    MachineInv (playing .square .dither 1#32) ∧ (playing .square .dither 1#32).configured = true
      ∧ (playing .square .dither 1#32).mode = .square ∧ (playing .saw .dither 1#32).mode = .saw :=
  ⟨playing_inv _ _ _, rfl, rfl, rfl⟩

end Sys2Proof.Tests
end

section
/-! The status word as a number (R34) and the values right after reset (R41). -/

namespace Sys2Proof.Machine

@[simp] theorem modeCode_toNat (m : Mode) : (modeCode m).toNat = modeNumber m := by cases m <;> rfl
@[simp] theorem kernelCode_toNat (k : Kernel) : (kernelCode k).toNat = kernelNumber k := by cases k <;> rfl
@[simp] theorem qpolicyCode_toNat (q : QPolicy) : (qpolicyCode q).toNat = qpolicyNumber q := by cases q <;> rfl
@[simp] theorem errCode_toNat (e : ErrCode) : (errCode e).toNat = errNumber e := by cases e <;> rfl

/-- A one-bit field counts 1 exactly when its truth value is true. -/
@[simp] theorem bit_toNat (b : Bool) : (bit b).toNat = if b = true then 1 else 0 := by cases b <;> rfl

theorem errNumber_eq_zero_iff (e : ErrCode) : errNumber e = 0 ↔ e = .none := by cases e <;> decide

theorem busy_iff {α : Type} (s : State α) : busy s = true ↔ s.remain.toNat ≠ 0 := by
  simp [busy, BitVec.toNat_eq]

theorem faulted_iff {α : Type} (s : State α) : faulted s = true ↔ errNumber s.err ≠ 0 := by
  simp [faulted, errNumber_eq_zero_iff]

/-- Putting fields side by side adds their numbers, the high one scaled past the low one. -/
theorem toNat_append_eq_add {m n : Nat} (hi : BitVec m) (lo : BitVec n) :
    (hi ++ lo).toNat = lo.toNat + 2 ^ n * hi.toNat := by
  rw [BitVec.toNat_append, ← Nat.shiftLeft_add_eq_or_of_lt lo.isLt, Nat.shiftLeft_eq, Nat.mul_comm, Nat.add_comm]

/-- R34 as one number, for a core of any number system. -/
theorem status_toNat {α : Type} (s : State α) : (status s).toNat
    = modeNumber s.mode + 2 ^ 2 * kernelNumber s.kernel + 2 ^ 3 * qpolicyNumber s.qpolicy
      + 2 ^ 4 * (if s.configured = true then 1 else 0) + 2 ^ 5 * (if s.seeded = true then 1 else 0)
      + 2 ^ 6 * (if s.remain.toNat ≠ 0 then 1 else 0) + 2 ^ 7 * (if errNumber s.err ≠ 0 then 1 else 0)
      + 2 ^ 8 * errNumber s.err := by
  simp only [status, toNat_append_eq_add, modeCode_toNat, kernelCode_toNat, qpolicyCode_toNat, errCode_toNat,
    bit_toNat, busy_iff, faulted_iff, BitVec.toNat_ofNat]
  omega

theorem status_reset : status State.reset = 0x00000000#32 := by decide

/-- Settles O14: each field of `STATUS` is the number of its code, and the fields side by side add up. -/
theorem statusFields : Obligations.StatusFields :=
  ⟨status_reset, status_toNat⟩

/-- Settles O13: each row of the table of R41 is a fact about `State.reset`; the real-valued registers hold the
empty polynomial, whose value is 0. -/
theorem resetValues : Obligations.ResetValues := by
  have hzero : toReal (.poly []) = 0 := by simp
  exact ⟨rfl, rfl, rfl, hzero, hzero, hzero, rfl, rfl, rfl, rfl, rfl, rfl, rfl, rfl, status_reset⟩

end Sys2Proof.Machine
end

section
/-! The encoder undone by the decoder (R80), and a command word as eight bytes, the lowest first (R56). -/

namespace Sys2Proof

/-! ### Decoding an encoded word -/

@[simp] theorem modeOfCode_modeCode (m : Mode) : modeOfCode (modeCode m) = m := by cases m <;> rfl
@[simp] theorem kernelOfCode_kernelCode (k : Kernel) : kernelOfCode (kernelCode k) = k := by cases k <;> rfl
@[simp] theorem qpolicyOfCode_qpolicyCode (q : QPolicy) : qpolicyOfCode (qpolicyCode q) = q := by cases q <;> rfl

/-- A field of `n` bits widened to the payload sets no bit from `n` up. -/
@[simp] theorem withPayload_setWidth {n : Nat} (x : BitVec n) (i : Instr) :
    withPayload n (x.setWidth 56) i = .ok i := by
  have hlt : (x.setWidth 56).toNat < 2 ^ n := by
    rw [BitVec.toNat_setWidth]
    exact (Nat.mod_le _ _).trans_lt x.isLt
  exact if_pos hlt

@[simp] theorem withPayload_zero (i : Instr) : withPayload 0 0#56 i = .ok i := rfl

/-- The field of a widened payload is what was widened. -/
theorem extractLsb'_setWidth_payload {n : Nat} (h : n ≤ 56) (x : BitVec n) :
    (x.setWidth 56).extractLsb' 0 n = x := by
  rw [BitVec.extractLsb'_setWidth_of_le (by omega), BitVec.extractLsb'_eq_self]

/-- The opcode selects the command's own branch of the decoder, whose payload is the widened operand. -/
@[simp] theorem decode_encode (i : Instr) : decode (encode i) = .ok i := by
  cases i <;> simp [decode, encode, extractLsb'_setWidth_payload]

/-! ### The bytes of a word -/

@[simp] theorem wordBytes_length (w : CommandWord) : (wordBytes w).length = 8 := rfl

theorem wordByte_toNat (w : CommandWord) (i : Nat) : (wordByte w i).toNat = w.toNat / 2 ^ (8 * i) % 256 := by
  rw [wordByte, BitVec.extractLsb'_toNat, Nat.shiftRight_eq_div_pow]

theorem wordBytes_getElem? (w : CommandWord) {i : Nat} (h : i < 8) : (wordBytes w)[i]? = some (wordByte w i) := by
  interval_cases i <;> rfl

/-- Each byte continues the bits below it, so the eight together are the whole word. -/
@[simp] theorem wordOfBytes_wordByte (w : CommandWord) :
    wordOfBytes (wordByte w 0) (wordByte w 1) (wordByte w 2) (wordByte w 3)
      (wordByte w 4) (wordByte w 5) (wordByte w 6) (wordByte w 7) = w := by
  simp only [wordOfBytes, wordByte, BitVec.extractLsb'_append_extractLsb'_eq_extractLsb']
  exact BitVec.extractLsb'_eq_self

/-- Reading a byte stream that begins with a word's bytes is decoding that word. -/
theorem decodeBytes_wordBytes_append (w : CommandWord) (rest : List Byte) :
    decodeBytes (wordBytes w ++ rest) = (decode w).map (·, rest) := by
  simp only [wordBytes, List.cons_append, List.nil_append, decodeBytes, wordOfBytes_wordByte]
  cases decode w <;> rfl

/-- Settles O5: byte by byte from `wordByte`, and the stream through `decode_encode`. -/
theorem commandBytesAreLittleEndian : Obligations.CommandBytesAreLittleEndian := by
  refine ⟨fun w => ⟨wordBytes_length w, fun i hi => ?_⟩, fun i rest => ?_⟩
  · rw [wordBytes_getElem? w hi, Option.map_some, wordByte_toNat]
  · rw [decodeBytes_wordBytes_append, decode_encode]
    rfl

end Sys2Proof
end

section
/-! The output stream as bytes, two per sample, the low one first (R55). -/

namespace Sys2Proof.Machine

theorem outBytes_length {α : Type} (s : State α) : (outBytes s).length = 2 * s.out.length := by
  simp [outBytes, sampleBytes, List.length_flatMap, Nat.mul_comm]

/-- The bytes at `2k` and `2k+1` are the halves of sample `k`, and there are none where there is no sample `k`. -/
theorem flatMap_sampleBytes_getElem? (samples : List Sample) (k : Nat) :
    (samples.flatMap sampleBytes)[2 * k]? = samples[k]?.map (·.extractLsb' 0 8)
      ∧ (samples.flatMap sampleBytes)[2 * k + 1]? = samples[k]?.map (·.extractLsb' 8 8) := by
  induction samples generalizing k with
  | nil => simp
  | cons w samples ih =>
    cases k with
    | zero => simp [sampleBytes]
    | succ k => simpa [sampleBytes, Nat.mul_succ] using ih k

theorem sampleLow_toNat (w : Sample) : (w.extractLsb' 0 8).toNat = w.toNat % 256 := by
  simp [BitVec.extractLsb'_toNat]

theorem sampleHigh_toNat (w : Sample) : (w.extractLsb' 8 8).toNat = w.toNat / 256 := by
  have hw := w.isLt
  rw [BitVec.extractLsb'_toNat, Nat.shiftRight_eq_div_pow]
  omega

/-- Settles O6: two bytes for each sample, and byte positions by induction on the samples. -/
theorem sampleBytesAreLittleEndian : Obligations.SampleBytesAreLittleEndian := by
  refine fun s => ⟨outBytes_length s, fun k w hw => ?_⟩
  obtain ⟨hlow, hhigh⟩ := flatMap_sampleBytes_getElem? s.out k
  constructor
  · rw [outBytes, hlow, hw, Option.map_some, Option.map_some, sampleLow_toNat]
  · rw [outBytes, hhigh, hw, Option.map_some, Option.map_some, sampleHigh_toNat]

end Sys2Proof.Machine
end

section
/-! The decoder as the inverse of the encoder (R71, R80), and which words are illegal (R81). -/

namespace Sys2Proof
open Machine

/-! ### The word of a command is the number of the tables -/

@[simp] theorem modeCode_modeOfCode (c : BitVec 2) : modeCode (modeOfCode c) = c := by revert c; decide
@[simp] theorem kernelCode_kernelOfCode (c : BitVec 1) : kernelCode (kernelOfCode c) = c := by revert c; decide
@[simp] theorem qpolicyCode_qpolicyOfCode (c : BitVec 1) : qpolicyCode (qpolicyOfCode c) = c := by revert c; decide

/-- The opcode stands past the payload, and the payload is the operand's number. -/
theorem encode_toNat (i : Instr) : (encode i).toNat = wordNumber i := by
  cases i <;>
    simp [encode, encodeWord_toNat, wordNumber, BitVec.toNat_setWidth_of_le, -BitVec.toNat_setWidth]

/-! ### The encoder undoes the decoder -/

@[simp] theorem encodeWord_opField_argField (w : CommandWord) : encodeWord (opField w) (argField w) = w := by
  apply BitVec.eq_of_toNat_eq
  rw [encodeWord_toNat, opField_toNat, argField_toNat]
  omega

theorem withPayload_eq_ok_iff {n : Nat} {arg : Payload} {i j : Instr} :
    withPayload n arg j = .ok i ↔ arg.toNat < 2 ^ n ∧ j = i := by
  unfold withPayload
  split <;> simp_all

theorem withPayload_isError_iff {n : Nat} {arg : Payload} {i : Instr} :
    (∃ e, withPayload n arg i = .error e) ↔ ¬ arg.toNat < 2 ^ n := by
  unfold withPayload
  split <;> simp_all

/-- A payload with no bit from `n` up is its field of `n` bits, widened. -/
theorem setWidth_extractLsb'_payload {n : Nat} {arg : Payload} (h : arg.toNat < 2 ^ n) :
    (arg.extractLsb' 0 n).setWidth 56 = arg := by
  apply BitVec.eq_of_toNat_eq
  rw [BitVec.toNat_setWidth, BitVec.extractLsb'_toNat, Nat.shiftRight_zero, Nat.mod_eq_of_lt h,
    Nat.mod_eq_of_lt arg.isLt]

theorem payload_eq_zero {arg : Payload} (h : arg.toNat < 2 ^ 0) : arg = 0#56 :=
  BitVec.eq_of_toNat_eq (Nat.lt_one_iff.mp h)

/-- A branch of the decoder that answers has found its opcode and no reserved bit, so its command's word is the word
read. -/
theorem encode_of_decode {w : CommandWord} {i : Instr} (h : decode w = .ok i) : encode i = w := by
  rw [← encodeWord_opField_argField w]
  simp only [decode] at h
  split_ifs at h with h0 h1 h2 h3 h4 h5 h6 h7 h8 h9
  all_goals obtain ⟨hlt, rfl⟩ := withPayload_eq_ok_iff.mp h
  · rw [h0, payload_eq_zero hlt]; rfl
  · rw [h1, payload_eq_zero hlt]; rfl
  all_goals simp [encode, setWidth_extractLsb'_payload hlt, *]

theorem decode_eq_ok_iff {w : CommandWord} {i : Instr} : decode w = .ok i ↔ encode i = w :=
  ⟨encode_of_decode, fun h => h ▸ decode_encode i⟩

/-- Settles O2: the decoder answers `i` exactly on the word of `i`, and that word is the number of the tables. -/
theorem decodeIsTheCommandTable : Obligations.DecodeIsTheCommandTable := by
  intro w i
  rw [decode_eq_ok_iff, ← encode_toNat, BitVec.toNat_eq, eq_comm]

/-! ### Which words are illegal -/

/-- The lowest reserved payload bit of each opcode that is used (R71). -/
def reservedFrom (op : Nat) : Nat := ([0, 0, 32, 48, 2, 2, 1, 1, 32, 32] : List Nat).getD op 56

@[simp] theorem argField_getLsbD (w : CommandWord) (b : Nat) :
    (argField w).getLsbD b = (decide (b < 56) && w.getLsbD b) := by
  rw [argField, BitVec.getLsbD_extractLsb', Nat.zero_add]

/-- A number is below `2 ^ n` unless one of its bits from `n` up is set; those of the payload are bits of the word. -/
theorem argField_not_lt_iff (w : CommandWord) (n : Nat) :
    ¬ (argField w).toNat < 2 ^ n ↔ ∃ b, n ≤ b ∧ b < 56 ∧ w.getLsbD b = true := by
  have hbit (b : Nat) : (argField w).toNat.testBit b = true ↔ b < 56 ∧ w.getLsbD b = true := by
    rw [BitVec.testBit_toNat, argField_getLsbD, Bool.and_eq_true, decide_eq_true_iff]
  constructor
  · intro h
    obtain ⟨b, hb, hset⟩ := Nat.exists_ge_and_testBit_of_ge_two_pow (Nat.le_of_not_lt h)
    exact ⟨b, hb, (hbit b).mp hset⟩
  · rintro ⟨b, hb, hset⟩ hlt
    have hpow : 2 ^ n ≤ 2 ^ b := Nat.pow_le_pow_right (by decide) hb
    have hle : 2 ^ b ≤ (argField w).toNat := Nat.ge_two_pow_of_testBit ((hbit b).mpr hset)
    omega

/-- The decoder's branches follow the opcode: a used one fails on its reserved bits alone, and past the ten branches
no opcode is used. -/
theorem decode_isError_iff (w : CommandWord) :
    (∃ e, decode w = .error e)
      ↔ 10 ≤ (opField w).toNat ∨ ¬ (argField w).toNat < 2 ^ reservedFrom (opField w).toNat := by
  simp only [decode]
  split_ifs
  case neg =>
    have hop : 10 ≤ (opField w).toNat := by bv_omega
    exact ⟨fun _ => .inl hop, fun _ => ⟨_, rfl⟩⟩
  all_goals simp [withPayload_isError_iff, reservedFrom, *]

/-- R81 over the word's bits. -/
theorem decode_isError_iff_bits (w : CommandWord) :
    (∃ e, decode w = .error e)
      ↔ 10 ≤ w.toNat / 2 ^ 56 ∨ ∃ b, reservedFrom (w.toNat / 2 ^ 56) ≤ b ∧ b < 56 ∧ w.getLsbD b = true := by
  rw [decode_isError_iff, argField_not_lt_iff, opField_toNat]

end Sys2Proof

namespace Sys2Proof.Machine

variable {α : Type} {P : Params α}

/-! ### What an illegal word does -/

theorem coreStep_idle_cons {run : Instr → State α → Result α} {s : State α} {w : CommandWord}
    {rest : List CommandWord} (hr : s.remain = 0#32) (hc : s.cmd = w :: rest) :
    coreStep P run s = command run w { s with cmd := rest } := by
  rw [coreStep, if_pos hr, hc]

/-- An idle core whose reset input is quiet takes the first word presented, and the level if one is listed. -/
theorem stepOf_idle_cons {s : State α} {w : CommandWord} {rest : List CommandWord}
    (hq : s.rst.head? ≠ some true) (hr : s.remain = 0#32) (hc : s.cmd = w :: rest) :
    stepOf P s = command (execOf P) w { s with rst := s.rst.tail, cmd := rest } :=
  (stepOf_quiet hq).trans (coreStep_idle_cons (s := { s with rst := s.rst.tail }) hr hc)

theorem command_illegal {run : Instr → State α → Result α} {w : CommandWord} (h : ∃ e, decode w = .error e)
    (s : State α) : command run w s = unlessFaulted (raise .illegalCmd) s := by
  obtain ⟨e, he⟩ := h
  rw [command, he]

/-- Settles O3: the two causes from the decoder's branches; the step from `command_illegal`, whose faulted test comes
first. -/
theorem illegalWordsRaise : Obligations.IllegalWordsRaise := by
  refine ⟨decode_isError_iff_bits, fun w rest s hill hq hr hc => ?_⟩
  rw [step_eq, stepOf_idle_cons hq hr hc, command_illegal hill]
  exact ⟨fun he => unlessFaulted_live (by exact he) _, fun he => unlessFaulted_faulted (by exact he) _⟩

end Sys2Proof.Machine
end

section
/-! The commands that produce no samples (spec/40_config_commands.md): on an unfaulted core the guards of
`CommandEffect` decide the next state, so each rule is one of its constructors. -/

namespace Sys2Proof.Machine

variable {α : Type} {P : Params α}

/-- The guards of the effects of one command exclude each other. -/
theorem CommandEffect.unique {i : Instr} {s t u : State α} (ht : CommandEffect P i s t)
    (hu : CommandEffect P i s u) : t = u := by
  cases ht with
  | nop | reset | setkern | setq | seed => cases hu; rfl
  | ldrate | ldrateError | ldfreq | ldfreqError | setmode | setmodeError => cases hu <;> simp_all
  | init | initConfigured | initRate | initFreq => cases hu <;> simp_all
  | fill | fillConfigured | fillSeed => cases hu <;> simp_all

/-- The converse of `execOf_effect`. -/
theorem execOf_of_effect {i : Instr} {s t : State α} (h : s.err = .none) (ht : CommandEffect P i s t) :
    execOf P i s = .next t := by
  obtain ⟨u, hu, he⟩ := execOf_live P i s h
  rw [hu, he.unique ht]

theorem exec_of_effect {i : Instr} {s t : State} (h : s.err = .none) (ht : CommandEffect chip i s t) :
    exec i s = .next t :=
  (exec_eq i s).trans (execOf_of_effect h ht)

/-! ### The tests of INIT as tests on numbers, and the step it computes -/

theorem atOrAboveNyquist_iff {f : FreqWord} {r : RateWord} :
    atOrAboveNyquist f r = true ↔ r.toNat * 65536 ≤ 2 * f.toNat := decide_eq_true_iff

theorem toNat_eq_zero_iff {n : Nat} {x : BitVec n} : x.toNat = 0 ↔ x = 0#n := by
  rw [BitVec.toNat_eq, BitVec.toNat_ofNat, Nat.zero_mod]

/-- An admitted configuration is one that passes the last three tests of INIT. -/
theorem admitted_iff {f : FreqWord} {r : RateWord} :
    admitted f r ↔ r ≠ 0#32 ∧ f ≠ 0#48 ∧ atOrAboveNyquist f r = false := by
  rw [admitted, Nat.pos_iff_ne_zero, Nat.pos_iff_ne_zero, ne_eq, ne_eq, toNat_eq_zero_iff, toNat_eq_zero_iff,
    ← Bool.not_eq_true, atOrAboveNyquist_iff, not_le]

/-- R121 over the reals. -/
theorem toReal_phaseStepOf (f : FreqWord) (r : RateWord) :
    toReal (phaseStepOf numExact f r) = 2 * Real.pi * ((f.toNat : ℝ) / 65536) / (r.toNat : ℝ) := by
  simp [phaseStepOf, numExact, freqHz, Rat.mkRat_eq_div]

/-- Settles O19: the four tests select one constructor each, and `toReal_phaseStepOf` gives the step. -/
theorem initCreatesTheOscillator : Obligations.InitCreatesTheOscillator := by
  intro m s he
  refine ⟨fun hc ha => ?created, fun hc => ?configured, fun hc hr => ?rateZero, fun hc hr hf => ?freqZero,
    fun hc hr _ hn => ?nyquist⟩
  case created =>
    obtain ⟨hr, hf, hn⟩ := admitted_iff.mp ha
    exact ⟨phaseStepOf numExact s.freqRaw s.sampleRate, numOfInt 0, numOfInt 0,
      exec_of_effect he (.init m s hc hr hf hn), toReal_phaseStepOf _ _, by simp, by simp⟩
  case configured => exact exec_of_effect he (.initConfigured m s hc)
  case rateZero => exact exec_of_effect he (.initRate m s hc (toNat_eq_zero_iff.mp hr))
  case freqZero =>
    exact exec_of_effect he (.initFreq m s hc (mt toNat_eq_zero_iff.mpr hr) (.inl (toNat_eq_zero_iff.mp hf)))
  case nyquist =>
    exact exec_of_effect he (.initFreq m s hc (mt toNat_eq_zero_iff.mpr hr) (.inr (atOrAboveNyquist_iff.mpr hn)))

/-! ### The other commands -/

/-- Settles O16: NOP has no faulted test before it. -/
theorem nopChangesNothing : Obligations.NopChangesNothing :=
  fun _ => rfl

theorem exec_reset (s : State) : exec .reset s = .next (doReset chip s) := rfl

/-- Settles O17: `doReset` written out, its real-valued registers being the integer 0, the empty polynomial. -/
theorem resetCommandEffect : Obligations.ResetCommandEffect := exec_reset

/-- Settles O18: `CONFIGURED` selects the constructor. -/
theorem loadsBeforeInitOnly : Obligations.LoadsBeforeInitOnly :=
  fun s he rate freq =>
    ⟨fun hc => ⟨exec_of_effect he (.ldrate rate s hc), exec_of_effect he (.ldfreq freq s hc)⟩,
      fun hc => ⟨exec_of_effect he (.ldrateError rate s hc), exec_of_effect he (.ldfreqError freq s hc)⟩⟩

/-- Settles O20: `CONFIGURED` selects the constructor. -/
theorem setmodeWritesModeOnly : Obligations.SetmodeWritesModeOnly :=
  fun m s he =>
    ⟨fun hc => exec_of_effect he (.setmode m s hc), fun hc => exec_of_effect he (.setmodeError m s hc)⟩

/-- Settles O21: each of the three commands has one constructor, without a guard. -/
theorem optionsAreAlwaysLegal : Obligations.OptionsAreAlwaysLegal :=
  fun s he =>
    ⟨fun k => exec_of_effect he (.setkern k s), fun q => exec_of_effect he (.setq q s),
      fun v => exec_of_effect he (.seed v s)⟩

end Sys2Proof.Machine
end

section
/-! The phase step as a real number, and its range under an admitted configuration (R121). -/

namespace Sys2Proof.Machine

theorem phaseStepOf_numReal (f : FreqWord) (r : RateWord) :
    phaseStepOf numReal f r = 2 * Real.pi * ((f.toNat : ℝ) / 65536) / (r.toNat : ℝ) := by
  simp [phaseStepOf, numReal, freqHz, Rat.mkRat_eq_div]

theorem toReal_phaseStepOf_pos {f : FreqWord} {r : RateWord} (h : admitted f r) :
    0 < toReal (phaseStepOf numExact f r) := by
  obtain ⟨hrate, hfreq, -⟩ := h
  have hr : (0 : ℝ) < r.toNat := Nat.cast_pos.mpr hrate
  have hf : (0 : ℝ) < f.toNat := Nat.cast_pos.mpr hfreq
  rw [toReal_phaseStepOf]
  positivity

/-- The step is `π · (2·FREQ_RAW / 65536) / SAMPLE_RATE`, and below Nyquist the factor of `π` is below 1. -/
theorem toReal_phaseStepOf_lt_pi {f : FreqWord} {r : RateWord} (h : admitted f r) :
    toReal (phaseStepOf numExact f r) < Real.pi := by
  obtain ⟨hrate, -, hnyquist⟩ := h
  have hr : (0 : ℝ) < r.toNat := Nat.cast_pos.mpr hrate
  have hf : 2 * (f.toNat : ℝ) / 65536 < r.toNat := by
    rw [div_lt_iff₀ (by norm_num)]
    exact_mod_cast hnyquist
  rw [toReal_phaseStepOf, div_lt_iff₀ hr]
  calc 2 * Real.pi * ((f.toNat : ℝ) / 65536)
      = Real.pi * (2 * (f.toNat : ℝ) / 65536) := by ring
    _ < Real.pi * r.toNat := mul_lt_mul_of_pos_left hf Real.pi_pos

/-- Settles O40: both number systems give the formula, and `admitted` gives the range. -/
theorem phaseStepFormula : Obligations.PhaseStepFormula :=
  fun f r h => ⟨toReal_phaseStepOf f r, (phaseStepOf_numReal f r).trans (toReal_phaseStepOf f r).symm,
    toReal_phaseStepOf_pos h, toReal_phaseStepOf_lt_pi h⟩

end Sys2Proof.Machine
end

section
/-! The two kernels over the reals in the factored form (R132, R133). The tests are the model's own, in its order; on
each window the expanded polynomial in `t / dt`, or in `(t - 1) / dt`, is the square of the rules' comments. -/

namespace Sys2Proof.Machine

theorem polyblepNarrow_numReal (t dt : ℝ) :
    polyblepNarrow numReal t dt
      = if 0 ≤ t ∧ t < dt then -(1 - t / dt) ^ 2 else if 1 - dt < t then ((t - 1) / dt + 1) ^ 2 else 0 := by
  simp only [polyblepNarrow, numReal, Int.cast_zero, Int.cast_one, Int.cast_ofNat, Bool.and_eq_true, decide_eq_true_eq,
    ge_iff_le, gt_iff_lt]
  split_ifs with hfirst hsecond
  · ring
  · ring
  · rfl

theorem half_numReal : half numReal = 1 / 2 := by simp [half, numReal, Rat.mkRat_eq_div]

theorem polyblepWide_numReal (t dt : ℝ) :
    polyblepWide numReal t dt
      = if 0 ≤ t ∧ t < dt then -(1 - t / dt) ^ 2 / 2 else if 1 - dt < t then ((t - 1) / dt + 1) ^ 2 / 2 else 0 := by
  simp only [polyblepWide, half_numReal]
  simp only [numReal, Int.cast_zero, Int.cast_one, Bool.and_eq_true, decide_eq_true_eq, ge_iff_le, gt_iff_lt]
  split_ifs with hfirst hsecond
  · ring
  · ring
  · rfl

/-- Settles O43: both formulas hold for every `dt`, so for a positive one. -/
theorem kernelFormulas : Obligations.KernelFormulas :=
  fun t dt _ => ⟨polyblepNarrow_numReal t dt, polyblepWide_numReal t dt⟩

end Sys2Proof.Machine
end

section
/-! The generators over the reals (R141 to R144). The remainder of R142 is the fractional part because `t + 1/2` is in
`[1/2, 3/2)`, so that one subtraction of 1 is enough. -/

namespace Sys2Proof.Machine

theorem turns_numReal (a : ℝ) : turns numReal a = a / (2 * Real.pi) := rfl

/-- A phase of the oscillator is less than one turn. -/
theorem turns_numReal_range {phase : ℝ} (h0 : 0 ≤ phase) (h1 : phase < 2 * Real.pi) :
    0 ≤ turns numReal phase ∧ turns numReal phase < 1 :=
  ⟨div_nonneg h0 Real.two_pi_pos.le, (div_lt_one Real.two_pi_pos).mpr h1⟩

theorem halfTurnOn_numReal (t : ℝ) :
    halfTurnOn numReal t = if 1 ≤ t + 1 / 2 then t + 1 / 2 - 1 else t + 1 / 2 := by
  simp only [halfTurnOn, half_numReal]
  simp [numReal]

theorem halfTurnOn_numReal_eq_fract {t : ℝ} (h0 : 0 ≤ t) (h1 : t < 1) :
    halfTurnOn numReal t = Int.fract (t + 1 / 2) := by
  rw [halfTurnOn_numReal, eq_comm]
  split_ifs with hwrap
  · rw [← Int.fract_sub_one, Int.fract_eq_self]
    constructor <;> linarith
  · rw [Int.fract_eq_self]
    constructor <;> linarith

theorem naiveSquare_numReal (phase : ℝ) : naiveSquare numReal phase = if phase < Real.pi then 1 else -1 := by
  simp [naiveSquare, numReal]

theorem genSine_numReal (phase : ℝ) : genSine numReal phase = Real.sin phase := rfl

theorem genSquare_numReal (k : Kernel) {phase : ℝ} (step : ℝ) (h0 : 0 ≤ phase) (h1 : phase < 2 * Real.pi) :
    genSquare numReal k phase step
      = (if phase < Real.pi then 1 else -1)
          + polyblep numReal k (phase / (2 * Real.pi)) (step / (2 * Real.pi))
          - polyblep numReal k (Int.fract (phase / (2 * Real.pi) + 1 / 2)) (step / (2 * Real.pi)) := by
  obtain ⟨ht0, ht1⟩ := turns_numReal_range h0 h1
  rw [← naiveSquare_numReal, ← turns_numReal, ← turns_numReal, ← halfTurnOn_numReal_eq_fract ht0 ht1]
  rfl

theorem genSaw_numReal (k : Kernel) (phase step : ℝ) :
    genSaw numReal k phase step
      = phase / Real.pi - 1 - polyblep numReal k (phase / (2 * Real.pi)) (step / (2 * Real.pi)) := by
  rw [← turns_numReal, ← turns_numReal, ← Int.cast_one (R := ℝ)]
  rfl

theorem genTriangle_numReal (k : Kernel) (phase step prev : ℝ) :
    genTriangle numReal k phase step prev = step * genSquare numReal k phase step + (1 - step) * prev := by
  simp [genTriangle, numReal]

theorem prevOutAfter_eq {α : Type} (m : Mode) (y prev : α) :
    prevOutAfter m y prev = if m = .triangle then y else prev := by
  cases m <;> rfl

/-- Settles O47: `generate` is the selected generator's formula; only the Square needs the phase in range, for the
remainder. -/
theorem generatorFormulas : Obligations.GeneratorFormulas :=
  fun k phase step prev h0 h1 _ _ =>
    ⟨genSine_numReal phase, genSquare_numReal k step h0 h1, genSaw_numReal k phase step,
      genTriangle_numReal k phase step prev, fun m y => prevOutAfter_eq m y prev⟩

end Sys2Proof.Machine
end

section
/-! The random source `XS32` on unsigned numbers, and the range of its draws (R166). -/

namespace Sys2Proof.Machine

/-- One update of `XS32` to the left: the bits shifted past bit 31 are lost. -/
theorem xor_shiftLeft_toNat (s : SeedWord) (k : Nat) :
    (s ^^^ (s <<< k)).toNat = s.toNat ^^^ (s.toNat * 2 ^ k % 2 ^ 32) := by
  rw [BitVec.toNat_xor, BitVec.toNat_shiftLeft, Nat.shiftLeft_eq]

theorem xor_ushiftRight_toNat (s : SeedWord) (k : Nat) :
    (s ^^^ (s >>> k)).toNat = s.toNat ^^^ (s.toNat / 2 ^ k) := by
  rw [BitVec.toNat_xor, BitVec.toNat_ushiftRight, Nat.shiftRight_eq_div_pow]

theorem xs32Next_toNat {s : SeedWord} {s1 s2 s3 : Nat} (h1 : s1 = s.toNat ^^^ (s.toNat * 2 ^ 13 % 2 ^ 32))
    (h2 : s2 = s1 ^^^ (s1 / 2 ^ 17)) (h3 : s3 = s2 ^^^ (s2 * 2 ^ 5 % 2 ^ 32)) : (xs32Next s).toNat = s3 := by
  rw [xs32Next, xor_shiftLeft_toNat, xor_ushiftRight_toNat, xor_shiftLeft_toNat, ← h1, ← h2, ← h3]

theorem xs32Draw_eq (s : SeedWord) : xs32Draw s = ((s.toNat / 2 ^ 8 : Nat) : Rat) / 2 ^ 24 := by
  rw [xs32Draw, Rat.mkRat_eq_div, Int.cast_natCast, Nat.cast_pow, Nat.cast_ofNat]

theorem xs32Draw_nonneg (s : SeedWord) : 0 ≤ xs32Draw s := by
  rw [xs32Draw_eq]
  positivity

/-- The top 24 bits of a word are at most `2 ^ 24 - 1`. -/
theorem xs32Draw_le (s : SeedWord) : xs32Draw s ≤ 1 - 1 / 2 ^ 24 := by
  have htop : s.toNat / 2 ^ 8 ≤ 2 ^ 24 - 1 := by omega
  have hcast : ((s.toNat / 2 ^ 8 : Nat) : Rat) ≤ ((2 ^ 24 - 1 : Nat) : Rat) := Nat.cast_le.mpr htop
  rw [xs32Draw_eq, div_le_iff₀ (by norm_num)]
  exact hcast.trans (by norm_num)

theorem xs32Draw_lt_one (s : SeedWord) : xs32Draw s < 1 := (xs32Draw_le s).trans_lt (by norm_num)

/-- Settles O55: the new state is the rule's number, and the draw is its top 24 bits as a fraction. -/
theorem randomSourceRule : Obligations.RandomSourceRule := by
  intro s s1 s2 s3 h1 h2 h3
  have hnext : (xs32Next s).toNat = s3 := xs32Next_toNat h1 h2 h3
  exact ⟨hnext, hnext ▸ xs32Draw_eq (xs32Next s), xs32Draw_nonneg _, xs32Draw_le _⟩

end Sys2Proof.Machine
end

section
/-! The two quantizer policies over the reals (R161, R162). -/

namespace Sys2Proof.Machine

theorem scaled_numReal (f : ℝ) : scaled numReal f = (f + 1) * (65535 / 2) := by
  simp [scaled, numReal, Rat.mkRat_eq_div]

theorem roundArg_numReal (f : ℝ) : roundArg numReal f = (f + 1) * (65535 / 2) + 1 / 2 := by
  rw [← scaled_numReal, ← half_numReal]
  rfl

theorem ditherArg_numReal (f : ℝ) (r : Rat) : ditherArg numReal f r = (f + 1) * (65535 / 2) + (r : ℝ) := by
  rw [← scaled_numReal]
  rfl

theorem quantizeRound_numReal (f : ℝ) :
    quantizeRound numReal f = clamp (-32768) 32767 (⌊(f + 1) * (65535 / 2) + 1 / 2⌋ - 32768) := by
  rw [← roundArg_numReal]
  rfl

theorem quantizeDither_numReal (f : ℝ) (r : Rat) :
    quantizeDither numReal f r = clamp (-32768) 32767 (⌊(f + 1) * (65535 / 2) + (r : ℝ)⌋ - 32768) := by
  rw [← ditherArg_numReal]
  rfl

/-- A draw in `[0, 1)` moves the floor up by one exactly when it fills what the fractional part leaves to 1 (R162). -/
theorem floor_add_draw (x : ℝ) {r : ℝ} (h0 : 0 ≤ r) (h1 : r < 1) :
    ⌊x + r⌋ = ⌊x⌋ + if 1 - Int.fract x ≤ r then 1 else 0 := by
  have hfract := Int.self_sub_floor x
  have hx0 := Int.fract_nonneg x
  have hx1 := Int.fract_lt_one x
  rw [Int.floor_eq_iff]
  split_ifs with hup
  · push_cast
    constructor <;> linarith
  · rw [add_zero]
    constructor <;> linarith

theorem quantizeDither_numReal_eq_ite (f : ℝ) {r : Rat} (h0 : 0 ≤ r) (h1 : r < 1) :
    quantizeDither numReal f r = clamp (-32768) 32767
      (⌊(f + 1) * (65535 / 2)⌋ + (if 1 - Int.fract ((f + 1) * (65535 / 2)) ≤ (r : ℝ) then 1 else 0) - 32768) := by
  rw [quantizeDither_numReal, floor_add_draw _ (by exact_mod_cast h0) (by exact_mod_cast h1)]

/-- Settles O51: Round is its formula; for Dither the draw of `XS32` is in `[0, 1)`, as `floor_add_draw` needs. -/
theorem quantizerFormulas : Obligations.QuantizerFormulas :=
  fun f rng =>
    ⟨congrArg (·, rng) (quantizeRound_numReal f),
      congrArg (·, (rngFn rng).1) (quantizeDither_numReal_eq_ite f (xs32Draw_nonneg _) (xs32Draw_lt_one _))⟩

/-! ### The values of Round (R169) -/

theorem clamp_of_mem {lo hi v : Int} (hlo : lo ≤ v) (hhi : v ≤ hi) : clamp lo hi v = v := by
  rw [clamp, if_neg hlo.not_gt, if_neg hhi.not_gt]

/-- Round gives the code `z` on the whole interval of scaled samples that round to it. -/
theorem quantizeRound_numReal_eq {f : ℝ} {z : Int} (hz : -32768 ≤ z ∧ z ≤ 32767)
    (hf : (z : ℝ) + 32768 ≤ (f + 1) * (65535 / 2) + 1 / 2 ∧ (f + 1) * (65535 / 2) + 1 / 2 < (z : ℝ) + 32768 + 1) :
    quantizeRound numReal f = z := by
  have hfloor : ⌊(f + 1) * (65535 / 2) + 1 / 2⌋ = z + 32768 := by
    rw [Int.floor_eq_iff]
    exact_mod_cast hf
  rw [quantizeRound_numReal, hfloor, add_sub_cancel_right, clamp_of_mem hz.1 hz.2]

/-- Settles O52: each input lies in the interval of its code; the ties `0` and `2/65535` lie at its lower end. -/
theorem roundExactness : Obligations.RoundExactness := by
  refine ⟨?_, ?_, ?_, ?_, ?_, ?_⟩ <;> apply quantizeRound_numReal_eq <;> norm_num

end Sys2Proof.Machine
end

section
/-! The sample step of a state the invariant allows (R181): the range it tests, its registers, and the step of a busy
core. -/

namespace Sys2Proof.Machine

variable {α : Type} {P : Params α}

/-! ### A busy core meets the precondition of the phase accumulator -/

/-- The step INIT computes, in turns, is between 0 and a half: below Nyquist (R105, R121). -/
theorem stepInTurns_mem {f : FreqWord} {r : RateWord} (h : admitted f r) :
    0 < (f.toNat : Rat) / (65536 * r.toNat) ∧ (f.toNat : Rat) / (65536 * r.toNat) < 1 / 2 := by
  obtain ⟨hrate, hfreq, hnyquist⟩ := h
  have hr : (0 : Rat) < r.toNat := Nat.cast_pos.mpr hrate
  have hf : (0 : Rat) < f.toNat := Nat.cast_pos.mpr hfreq
  have hn : 2 * (f.toNat : Rat) < r.toNat * 65536 := by exact_mod_cast hnyquist
  refine ⟨by positivity, ?_⟩
  rw [div_lt_iff₀ (by positivity)]
  linarith

theorem hasOscillator.inRange {s : State} (h : hasOscillator s) :
    phaseInRange numExact s.phase s.phaseStep = true := by
  obtain ⟨hadm, hstep, ⟨τ, h0, h1, hphase⟩, -⟩ := h
  obtain ⟨hδ0, hδ1⟩ := stepInTurns_mem hadm
  rw [hstep, phaseStepOf_exact hadm.1.ne', hphase, phaseInRange_exact]
  simp only [h0, h1, hδ0, hδ1, decide_true, Bool.and_self]

theorem MachineInv.oscillator {s : State} (h : MachineInv s) (hc : s.configured = true) : hasOscillator s := by
  obtain ⟨hosc, -⟩ := h
  exact hosc hc

/-- Without an OscillatorState nothing is owed. -/
theorem MachineInv.configured_of_busy {s : State} (h : MachineInv s) (hb : s.remain ≠ 0#32) : s.configured = true := by
  obtain ⟨-, hnone, -⟩ := h
  by_contra hc
  obtain ⟨-, -, -, -, hremain, -⟩ := hnone (Bool.eq_false_iff.mpr hc)
  exact hb hremain

theorem MachineInv.err_of_busy {s : State} (h : MachineInv s) (hb : s.remain ≠ 0#32) : s.err = .none := by
  obtain ⟨-, -, hbusy, -⟩ := h
  exact (hbusy hb).1

theorem MachineInv.sampleStep_eq {s : State} (h : MachineInv s) (hb : s.remain ≠ 0#32) :
    sampleStep chip s = .next { produceSample chip s with remain := s.remain - 1#32 } :=
  sampleStep_inRange (h.oscillator (h.configured_of_busy hb)).inRange

/-! ### What a sample makes of `PREV_OUT` and `RNG` -/

theorem samplePathOf_prevOut_triangle {s : State α} (h : s.mode = .triangle) :
    (samplePathOf P s).prevOut = genTriangle P.num s.kernel s.phase s.phaseStep s.prevOut := by
  simp [samplePathOf, samplePath, h, prevOutAfter, generate]

theorem samplePathOf_prevOut_of_ne {s : State α} (h : s.mode ≠ .triangle) :
    (samplePathOf P s).prevOut = s.prevOut :=
  (prevOutAfter_eq _ _ _).trans (if_neg h)

theorem samplePathOf_rng_dither {s : State α} (h : s.qpolicy = .dither) :
    (samplePathOf P s).rng = (P.rng s.rng).1 := by
  simp [samplePathOf, samplePath, h, quantize]

theorem samplePathOf_rng_round {s : State α} (h : s.qpolicy = .round) : (samplePathOf P s).rng = s.rng := by
  simp [samplePathOf, samplePath, h, quantize]

/-! ### The step of a busy core -/

theorem remain_sub_one_toNat {n : CountWord} (h : n ≠ 0#32) : (n - 1#32).toNat + 1 = n.toNat := by
  bv_omega

theorem coreStep_busy {run : Instr → State α → Result α} {s : State α} (h : s.remain ≠ 0#32) :
    coreStep P run s = sampleStep P s := by
  rw [coreStep, if_neg h]

/-- A sample step neither reads nor writes the reset input. -/
theorem sampleStep_withRst {s t : State α} (h : sampleStep P s = .next t) (levels : List Bool) :
    sampleStep P { s with rst := levels } = .next { t with rst := levels } := by
  obtain ⟨hrange, rfl⟩ := sampleStep_cases h
  exact sampleStep_inRange (s := { s with rst := levels }) hrange

/-- While samples are owed and the reset input is quiet, the step is the sample step and uses up a listed level. -/
theorem stepOf_busy {s t : State α} (hq : s.rst.head? ≠ some true) (hb : s.remain ≠ 0#32)
    (h : sampleStep P s = .next t) : stepOf P s = .next { t with rst := s.rst.tail } :=
  (stepOf_quiet hq).trans
    ((coreStep_busy (s := { s with rst := s.rst.tail }) hb).trans (sampleStep_withRst h s.rst.tail))

/-- Settles O29: the invariant gives the range, so the step is `produceSample` with `REMAIN` counted down; its
registers are those of `samplePathOf`, and every other one is a field of `s`. -/
theorem sampleStepEffect : Obligations.SampleStepEffect := by
  intro s hinv hbusy
  have hstep := hinv.sampleStep_eq hbusy
  refine ⟨hinv.configured_of_busy hbusy, hinv.err_of_busy hbusy, _, hstep, rfl, rfl, remain_sub_one_toNat hbusy,
    samplePathOf_prevOut_triangle, samplePathOf_prevOut_of_ne, samplePathOf_rng_dither, samplePathOf_rng_round,
    rfl, rfl, rfl, rfl, rfl, rfl, rfl, rfl, rfl, rfl, rfl, fun hquiet => ?_⟩
  rw [step_eq]
  exact stepOf_busy hquiet hbusy hstep

end Sys2Proof.Machine
end

section
/-! Errors and the faulted state (spec/60_exceptions.md): the error a command word records, what raising one changes,
and how a core leaves the faulted state. -/

namespace Sys2Proof.Machine

variable {α : Type} {P : Params α}

/-! ### What the status word shows of an error -/

/-- `FAULT` stands past seven bits, and the error code past it. -/
theorem status_toNat_split (s : State α) :
    ∃ low, low < 2 ^ 7 ∧ (status s).toNat = low + 2 ^ 7 * ((bit (faulted s)).toNat + 2 * errNumber s.err) := by
  refine ⟨(bit (busy s) ++ bit s.seeded ++ bit s.configured ++ qpolicyCode s.qpolicy ++ kernelCode s.kernel
    ++ modeCode s.mode).toNat, BitVec.isLt _, ?_⟩
  rw [← errCode_toNat]
  simp only [status, toNat_append_eq_add, BitVec.toNat_ofNat]
  omega

theorem status_faultBit (s : State α) : (status s).getLsbD 7 = faulted s := by
  obtain ⟨low, hlow, hs⟩ := status_toNat_split s
  have hbit : (status s).toNat / 2 ^ 7 % 2 = (bit (faulted s)).toNat := by
    have := (bit (faulted s)).isLt
    omega
  rw [← BitVec.testBit_toNat, Nat.testBit_eq_decide_div_mod_eq, hbit]
  cases faulted s <;> rfl

theorem status_errField (s : State α) : (status s).toNat / 256 % 16 = errNumber s.err := by
  obtain ⟨low, hlow, hs⟩ := status_toNat_split s
  have hfault := (bit (faulted s)).isLt
  have hcode := (errCode s.err).isLt
  rw [errCode_toNat] at hcode
  omega

/-! ### The error a command word records on an unfaulted core -/

theorem errorOfWord_illegal {w : CommandWord} (h : ∃ e, decode w = .error e) (s : State) :
    errorOfWord w s = .illegalCmd := by
  obtain ⟨e, he⟩ := h
  simp only [errorOfWord, he]

theorem nyquistTest_iff {f : FreqWord} {r : RateWord} :
    65536 * r.toNat ≤ 2 * f.toNat ↔ atOrAboveNyquist f r = true := by
  rw [Nat.mul_comm, atOrAboveNyquist_iff]

/-- The guards of an effect are the outcomes of the tests of R202, so they select one line of `errorOfWord`. -/
theorem CommandEffect.err_eq {w : CommandWord} {i : Instr} {s t : State} (hd : decode w = .ok i)
    (he : s.err = .none) (h : CommandEffect chip i s t) : t.err = errorOfWord w s := by
  cases h with
  | nop | reset | setkern | setq | seed => simp [errorOfWord, hd, he]
  | ldrate _ _ hc | ldfreq _ _ hc | setmode _ _ hc => simp [errorOfWord, hd, he, hc]
  | ldrateError _ _ hc | ldfreqError _ _ hc | initConfigured _ _ hc | setmodeError _ _ hc | fillConfigured _ _ hc =>
    simp [errorOfWord, hd, hc]
  | initRate _ _ hc hr => simp [errorOfWord, hd, hc, hr]
  | initFreq _ _ hc hr hf => simp [errorOfWord, hd, hc, toNat_eq_zero_iff, nyquistTest_iff, hr, hf]
  | init _ _ hc hr hf hn => simp [errorOfWord, hd, he, hc, toNat_eq_zero_iff, nyquistTest_iff, hr, hf, hn]
  | fillSeed _ _ hc hq hs => simp [errorOfWord, hd, hc, hq, hs]
  | fill _ _ hc hq => simpa [errorOfWord, hd, he, hc] using hq

/-- An effect that leaves an error on an unfaulted core has written `ERR` alone (R203). -/
theorem CommandEffect.eq_of_err {i : Instr} {s t : State α} (he : s.err = .none) (h : CommandEffect P i s t)
    (ht : t.err ≠ .none) : t = { s with err := t.err } := by
  cases h with
  | ldrateError | ldfreqError | initConfigured | initRate | initFreq | setmodeError | fillConfigured | fillSeed => rfl
  | reset => exact absurd rfl ht
  | nop | ldrate | ldfreq | init | setmode | setkern | setq | seed | fill => exact absurd he ht

/-! ### A command word on the machine -/

theorem command_exec : command exec = command (execOf chip) :=
  congrArg command (funext fun i => funext (exec_eq i))

theorem command_reset {w : CommandWord} (h : decode w = .ok .reset) (s : State α) :
    command (execOf P) w s = .next (doReset P s) := by
  simp only [command, h]
  rfl

/-- A faulted core ignores a word that is not RESET's (R204). -/
theorem command_ignored {w : CommandWord} {s : State α} (he : s.err ≠ .none) (h : decode w ≠ .ok .reset) :
    command (execOf P) w s = .next s := by
  obtain ⟨_, _, _, hlive, _⟩ | ⟨hreset, _⟩ | ⟨_, _, hs⟩ | ⟨_, hlive, _⟩ := command_cases P w s
  · exact absurd hlive he
  · exact absurd hreset h
  · exact hs
  · exact absurd hlive he

/-- A word on an unfaulted core completes, with the error of the table (R201, R202), and a failing one has written
`ERR` alone (R203). -/
theorem command_live (w : CommandWord) {s : State} (he : s.err = .none) :
    ∃ t, command exec w s = .next t ∧ t.err = errorOfWord w s ∧ (t.err ≠ .none → t = { s with err := t.err }) := by
  rw [command_exec]
  obtain ⟨i, t, hd, _, ht, heff⟩ | ⟨_, hfault, _⟩ | ⟨_, hfault, _⟩ | ⟨hill, _, ht⟩ := command_cases chip w s
  · exact ⟨t, ht, heff.err_eq hd he, heff.eq_of_err he⟩
  · exact absurd he hfault
  · exact absurd he hfault
  · exact ⟨_, ht, (errorOfWord_illegal hill s).symm, fun _ => rfl⟩

theorem sampleStep_err {s t : State α} (h : sampleStep P s = .next t) : t.err = s.err := by
  obtain ⟨-, rfl⟩ := sampleStep_cases h
  rfl

/-- Settles O24: `command_live` on an unfaulted core; on a faulted one the word is RESET's or is ignored. -/
theorem errorOfEveryWord : Obligations.ErrorOfEveryWord := by
  refine ⟨fun w s he => ?live, fun w s he => ?faulted, fun s t => sampleStep_err, errCode_toNat⟩
  case live =>
    obtain ⟨t, ht, herr, -⟩ := command_live w he
    exact ⟨t, ht, herr⟩
  case faulted =>
    rw [command_exec]
    by_cases hd : decode w = .ok .reset
    · exact ⟨_, command_reset hd s, .inr ⟨hd, rfl⟩⟩
    · exact ⟨s, command_ignored he hd, .inl rfl⟩

/-- Settles O25: the frame is that of `command_live`, and `STATUS` shows the new `ERR`. -/
theorem failingCommandWritesErrOnly : Obligations.FailingCommandWritesErrOnly := by
  intro w s t he ht hfail
  obtain ⟨u, hu, -, hframe⟩ := command_live w he
  obtain rfl : u = t := Host.Outcome.next.inj (hu.symm.trans ht)
  exact ⟨hframe hfail, (status_faultBit u).trans (bne_iff_ne.mpr hfail), status_errField u⟩

/-! ### The step of a faulted core -/

/-- Settles O26: the step takes the word, which is RESET's or is ignored; the invariant has no owed sample beside an
error. -/
theorem faultedCoreIgnoresAllButReset : Obligations.FaultedCoreIgnoresAllButReset := by
  refine ⟨fun s w rest he hq hr hc => ?word, fun s hinv he => ?idle⟩
  case word =>
    rw [step_eq, stepOf_idle_cons hq hr hc]
    exact ⟨fun hd => command_ignored (by exact he) hd, fun hd => command_reset hd _⟩
  case idle =>
    by_contra hbusy
    exact he (hinv.err_of_busy hbusy)

/-- With the reset input quiet, only the RESET command changes `ERR` of a faulted core, and what it leaves is a reset
state (R205). -/
theorem coreStep_leaves_fault {s t : State α} (he : s.err ≠ .none) (h : coreStep P (execOf P) s = .next t)
    (hne : t.err ≠ s.err) : t = doReset P t ∧ ∃ w rest, s.cmd = w :: rest ∧ decode w = .ok .reset := by
  obtain ⟨_, hsample⟩ | ⟨_, _, rfl⟩ | ⟨w, rest, _, hc, hcmd⟩ := coreStep_cases h
  · exact absurd (sampleStep_err hsample) hne
  · exact absurd rfl hne
  · by_cases hd : decode w = .ok .reset
    · rw [command_reset hd] at hcmd
      obtain rfl := Host.Outcome.next.inj hcmd
      exact ⟨rfl, w, rest, hc, hd⟩
    · rw [command_ignored (by exact he) hd] at hcmd
      obtain rfl := Host.Outcome.next.inj hcmd
      exact absurd rfl hne

/-- A change of `ERR` on a faulted core is a reset, by the reset input or by the command (R205). -/
theorem stepOf_leaves_fault {s t : State α} (he : s.err ≠ .none) (h : stepOf P s = .next t) (hne : t.err ≠ s.err) :
    t = doReset P t
      ∧ ((∃ rs, s.rst = true :: rs) ∨ ∃ w rest, s.cmd = w :: rest ∧ decode w = .ok .reset) := by
  obtain ⟨rs, hrst, rfl⟩ | ⟨rs, _, hcore⟩ | ⟨_, hcore⟩ := stepOf_cases h
  · exact ⟨rfl, .inl ⟨rs, hrst⟩⟩
  · obtain ⟨ht, hword⟩ := coreStep_leaves_fault (by exact he) hcore hne
    exact ⟨ht, .inr hword⟩
  · obtain ⟨ht, hword⟩ := coreStep_leaves_fault he hcore hne
    exact ⟨ht, .inr hword⟩

/-- Settles O27: `stepOf_leaves_fault` on the machine, whose reset state is `State.reset`. -/
theorem onlyResetLeavesTheFaultedState : Obligations.OnlyResetLeavesTheFaultedState := by
  intro s t he h hne
  rw [step_eq] at h
  exact stepOf_leaves_fault he h hne

end Sys2Proof.Machine
end

section
/-! The encoding, last part: the round trip of R80, the worked words of R85, and the operands of the assembler
(R83, R84). -/

namespace Sys2Proof

/-- Settles O1: the opcode selects the command's own branch of the decoder, which reads the operand back
(`decode_encode`). -/
theorem decodeInvertsEncode : Obligations.DecodeInvertsEncode := decode_encode

/-- Settles O4: fifteen fixed words. -/
theorem workedEncodings : Obligations.WorkedEncodings := by
  unfold Obligations.WorkedEncodings
  decide

end Sys2Proof

namespace Sys2Proof.Machine

/-! ### Frequencies in units of 1/65536 Hz -/

/-- A multiple of 1/65536 Hz in lowest terms: its denominator divides 65536, and the cofactor scales its numerator to
the number of units. -/
theorem exists_cofactor_of_units {g : Rat} {f : Nat} (h : g = (f : Rat) / 65536) :
    ∃ c : Nat, g.den * c = 65536 ∧ g.num.toNat * c = f ∧ 0 ≤ g.num := by
  have hden : (g.den : Int) ∣ 65536 := by
    have := Rat.den_dvd (f : Int) 65536
    rwa [Rat.divInt_eq_div, Int.cast_natCast, Int.cast_ofNat, ← h] at this
  obtain ⟨c, hc⟩ : g.den ∣ 65536 := by exact_mod_cast hden
  have hnum : 0 ≤ g.num := Rat.num_nonneg.mpr (h ▸ by positivity)
  have hd : (g.den : Rat) ≠ 0 := Nat.cast_ne_zero.mpr g.den_nz
  have hcross : (g.num : Rat) * c = f := by
    have hg : (g.num : Rat) / g.den = (f : Rat) / (g.den * c : Nat) := by
      rw [Rat.num_div_den, ← hc, h, Nat.cast_ofNat]
    have hc0 : (c : Rat) ≠ 0 := Nat.cast_ne_zero.mpr (by rintro rfl; omega)
    push_cast at hg
    field_simp at hg
    exact hg
  refine ⟨c, hc.symm, ?_, hnum⟩
  have : g.num * c = f := by exact_mod_cast hcross
  rw [← Int.toNat_of_nonneg hnum] at this
  exact_mod_cast this

theorem asmFrequencyOk_iff (g : Rat) :
    asmFrequencyOk g = true ↔ 0 ≤ g.num ∧ g.num < 4294967296 * (g.den : Int) ∧ g.den ∣ 65536 := by
  simp [asmFrequencyOk, Nat.dvd_iff_mod_eq_zero, and_assoc]

/-- A frequency of `f` units, `f` within the field, is accepted, and its field is `f`. -/
theorem asmFrequency_of_units {g : Rat} {f : Nat} (hf : f < 2 ^ 48) (h : g = (f : Rat) / 65536) :
    asmFrequencyOk g = true ∧ (asmFreqField g).toNat = f := by
  obtain ⟨c, hc, hnum, hnonneg⟩ := exists_cofactor_of_units h
  have hcpos : 0 < c := Nat.pos_of_ne_zero (by rintro rfl; omega)
  constructor
  · refine (asmFrequencyOk_iff g).mpr ⟨hnonneg, ?_, ⟨c, hc.symm⟩⟩
    have hlt : g.num.toNat * c < 4294967296 * g.den * c := by
      rw [hnum, mul_assoc, hc]
      omega
    have := Nat.lt_of_mul_lt_mul_right hlt
    omega
  · have hcof : 65536 / g.den = c := by rw [← hc, Nat.mul_div_cancel_left c g.den_pos]
    rw [asmFreqField, hcof, hnum, BitVec.toNat_ofNat, Nat.mod_eq_of_lt hf]

/-- An accepted frequency is a number of units within the field. -/
theorem units_of_asmFrequencyOk {g : Rat} (h : asmFrequencyOk g = true) :
    ∃ f : Nat, f < 2 ^ 48 ∧ g = (f : Rat) / 65536 := by
  obtain ⟨hnonneg, hlt, c, hc⟩ := (asmFrequencyOk_iff g).mp h
  obtain ⟨n, hn⟩ := Int.eq_ofNat_of_zero_le hnonneg
  have hcpos : 0 < c := Nat.pos_of_ne_zero (by rintro rfl; omega)
  refine ⟨n * c, ?_, ?_⟩
  · have hn' : n < 4294967296 * g.den := by omega
    calc n * c < 4294967296 * g.den * c := Nat.mul_lt_mul_of_pos_right hn' hcpos
      _ = 2 ^ 48 := by rw [mul_assoc, ← hc]; norm_num
  · have hc' : (65536 : Rat) = g.den * c := by exact_mod_cast hc
    have hc0 : (c : Rat) ≠ 0 := Nat.cast_ne_zero.mpr hcpos.ne'
    rw [hc', Nat.cast_mul, mul_div_mul_right _ _ hc0]
    conv_lhs => rw [← Rat.num_div_den g, hn]
    rfl

/-! ### Lines -/

theorem assembleLine_eq_none {l : AsmLine} (h : l.wellFormed = false) : assembleLine l = none :=
  if_neg (Bool.eq_false_iff.mp h)

/-- The words of an accepted line are the numbers of the commands it stands for. -/
theorem assembleLine_toNat {l : AsmLine} (h : l.wellFormed = true) :
    (assembleLine l).map (fun ws => ws.map BitVec.toNat) = some ((asmExpand l).map wordNumber) := by
  rw [assembleLine, if_pos h, Option.map_some, List.map_map]
  exact congrArg some (List.map_congr_left fun i _ => encode_toNat i)

/-- A line with its operands in range is accepted, and the commands it stands for have the numbers of the tables. -/
theorem asmLine_of_inRange {l : AsmLine} {f : Nat} (hf : f < 2 ^ 48)
    (hfreq : ∀ g, (l = .ldfreq g ∨ ∃ r m, l = .config r g m) → g = (f : Rat) / 65536)
    (hnum : ∀ n, (l = .ldrate n ∨ l = .seed n ∨ l = .fill n ∨ ∃ g m, l = .config n g m) → n ≤ 4294967295) :
    l.wellFormed = true ∧ (asmExpand l).map wordNumber = lineNumbers f l := by
  cases l with
  | nop | reset | init | setmode | setkern | setq => exact ⟨rfl, rfl⟩
  | ldrate n | seed n | fill n =>
    have hn : n ≤ 4294967295 := hnum n (by simp)
    have hlt : n < 4294967296 := by omega
    simp [AsmLine.wellFormed, asmExpand, wordNumber, lineNumbers, hn, hlt]
  | ldfreq g =>
    obtain ⟨hok, hfield⟩ := asmFrequency_of_units hf (hfreq g (.inl rfl))
    simp [AsmLine.wellFormed, asmExpand, wordNumber, lineNumbers, hok, hfield]
  | config n g m =>
    obtain ⟨hok, hfield⟩ := asmFrequency_of_units hf (hfreq g (.inr ⟨n, m, rfl⟩))
    have hn : n ≤ 4294967295 := hnum n (by simp)
    have hlt : n < 4294967296 := by omega
    simp [AsmLine.wellFormed, asmExpand, wordNumber, lineNumbers, hok, hfield, hn, hlt]

/-- Settles O7: in range by `asmLine_of_inRange`; out of range the check of the line fails. -/
theorem assemblerChecksItsOperands : Obligations.AssemblerChecksItsOperands := by
  refine ⟨fun l f hf hfreq hnum => ?inRange, fun n hn => ?number, fun g hg => ?frequency⟩
  case inRange =>
    obtain ⟨hwf, hwords⟩ := asmLine_of_inRange hf hfreq hnum
    rw [assembleLine_toNat hwf, hwords]
  case number =>
    have hn' : decide (n ≤ 4294967295) = false := decide_eq_false (by omega)
    exact ⟨assembleLine_eq_none hn', assembleLine_eq_none hn', assembleLine_eq_none hn', fun g m =>
      assembleLine_eq_none (by rw [AsmLine.wellFormed, hn', Bool.false_and])⟩
  case frequency =>
    have hbad : asmFrequencyOk g = false := by
      rw [Bool.eq_false_iff]
      intro hok
      obtain ⟨f, hf, hgf⟩ := units_of_asmFrequencyOk hok
      exact hg f hf hgf
    exact ⟨assembleLine_eq_none hbad, fun r m =>
      assembleLine_eq_none (by rw [AsmLine.wellFormed, hbad, Bool.and_false])⟩

end Sys2Proof.Machine
end

section
/-! The invariant of the machine: it holds right after reset, every step keeps it (R31, R36), and no state it allows
stops. The step lemmas hold for every generator of R7. -/

namespace Sys2Proof.Machine

/-- The parameters of the machine with `G` for `RNG_FN` (R7). -/
abbrev exactWith (G : SeedWord → SeedWord × Rat) : Params ExactNum := { num := numExact, rng := G }

theorem chip_eq_exactWith : chip = exactWith rngFn := rfl

variable {G : SeedWord → SeedWord × Rat}

/-! ### The oscillator in turns (R13), and one sample of it -/

/-- An OscillatorState in turns: the phase in `[0, 1)` and the step in `(0, 1/2)`. -/
theorem hasOscillator.turns {s : State} (h : hasOscillator s) :
    ∃ τ δ : Rat, (0 ≤ τ ∧ τ < 1) ∧ (0 < δ ∧ δ < 1 / 2) ∧ s.phase = numOfPi (2 * τ) ∧ s.phaseStep = numOfPi (2 * δ) := by
  obtain ⟨hadm, hstep, ⟨τ, h0, h1, hphase⟩, -⟩ := h
  exact ⟨τ, _, ⟨h0, h1⟩, stepInTurns_mem hadm, hphase, hstep.trans (phaseStepOf_exact hadm.1.ne')⟩

/-- The advance stays in the turns form, and the Triangle value in the polynomial form. -/
theorem hasOscillator.produceSample {s : State} (h : hasOscillator s) :
    hasOscillator (produceSample (exactWith G) s) := by
  obtain ⟨τ, δ, ⟨h0, h1⟩, ⟨hδ0, hδ1⟩, hphase, hstep⟩ := h.turns
  obtain ⟨hadm, hcomputed, -, p, hprev, hnormal⟩ := h
  have hadvance : (Machine.produceSample (exactWith G) s).phase = numOfPi (2 * advance numTurns τ δ) := by
    rw [← advance_exact, ← hphase, ← hstep]
    rfl
  obtain ⟨ha0, ha1⟩ := advance_turns_mem h0 h1 hδ0 (hδ1.trans (by norm_num))
  refine ⟨hadm, hcomputed, ⟨_, ha0, ha1, hadvance⟩, ?_⟩
  by_cases hm : s.mode = .triangle
  · rw [produceSample_prevOut, samplePathOf_prevOut_triangle hm, hphase, hstep, hprev]
    exact genTriangle_form s.kernel τ hδ0.ne' p
  · rw [produceSample_prevOut, samplePathOf_prevOut_of_ne hm]
    exact ⟨p, hprev, hnormal⟩

theorem sampleStep_of_oscillator {s : State} (h : hasOscillator s) :
    sampleStep (exactWith G) s = .next { produceSample (exactWith G) s with remain := s.remain - 1#32 } :=
  sampleStep_inRange h.inRange

/-! ### Each kind of step keeps the invariant -/

theorem MachineInv.afterReset (s : State) : MachineInv (doReset (exactWith G) s) := by
  refine ⟨fun hc => ?_, fun _ => ⟨rfl, rfl, rfl, rfl, rfl, rfl⟩, fun hb => absurd rfl hb, fun _ => rfl⟩
  cases hc

/-- `RNG` moves under Dither alone, and a busy core under Dither is seeded. -/
theorem MachineInv.afterSample {s : State} (h : MachineInv s) (hb : s.remain ≠ 0#32) :
    MachineInv { produceSample (exactWith G) s with remain := s.remain - 1#32 } := by
  have hc := h.configured_of_busy hb
  have hosc := (h.oscillator hc).produceSample (G := G)
  obtain ⟨-, -, hbusy, hseed⟩ := h
  obtain ⟨herr, hdither⟩ := hbusy hb
  refine ⟨fun _ => hosc, fun hn => ?_, fun _ => ⟨herr, hdither⟩, fun hs => ?_⟩
  · exact absurd (hc.symm.trans hn) (by decide)
  · have hround : s.qpolicy = .round := by
      cases hq : s.qpolicy with
      | round => rfl
      | dither => exact absurd ((hdither hq).symm.trans hs) (by decide)
    exact (samplePathOf_rng_round hround).trans (hseed hs)

/-- An error on an idle core writes `ERR` alone, which the invariant reads only while samples are owed. -/
theorem MachineInv.withErr {s : State} (h : MachineInv s) (hidle : s.remain = 0#32) (e : ErrCode) :
    MachineInv { s with err := e } := by
  obtain ⟨hosc, hnone, -, hseed⟩ := h
  exact ⟨hosc, hnone, fun hb => absurd hidle hb, hseed⟩

theorem hasOscillator_createOscillator {m : Mode} {s : State} (h : admitted s.freqRaw s.sampleRate) :
    hasOscillator (createOscillator (exactWith G) m s) :=
  ⟨h, rfl, ⟨0, le_refl _, by norm_num, by rw [mul_zero]; exact numOfInt_zero⟩, ⟨[], rfl, rfl⟩⟩

theorem CommandEffect.inv {i : Instr} {s t : State} (he : CommandEffect (exactWith G) i s t) (h : MachineInv s)
    (hlive : s.err = .none) (hidle : s.remain = 0#32) : MachineInv t := by
  have hraise := h.withErr hidle
  have ⟨hosc, hnone, _, hseed⟩ := h
  cases he with
  | nop | setkern => exact h
  | reset => exact .afterReset s
  | ldrateError | ldfreqError | initConfigured | initRate | initFreq | setmodeError | fillConfigured | fillSeed =>
    exact hraise _
  | ldrate _ _ hc | ldfreq _ _ hc =>
    exact ⟨fun hc' => absurd (hc'.symm.trans hc) (by decide), hnone, fun hb => absurd hidle hb, hseed⟩
  | init _ _ hc hr hf hn =>
    exact ⟨fun _ => hasOscillator_createOscillator (admitted_iff.mpr ⟨hr, hf, hn⟩), fun hc' => (by cases hc'),
      fun hb => absurd hidle hb, hseed⟩
  | setmode _ _ hc =>
    exact ⟨hosc, fun hc' => absurd (hc.symm.trans hc') (by decide), fun hb => absurd hidle hb, hseed⟩
  | setq => exact ⟨hosc, hnone, fun hb => absurd hidle hb, hseed⟩
  | seed => exact ⟨hosc, hnone, fun hb => absurd hidle hb, fun hs => (by cases hs)⟩
  | fill _ _ hc hq =>
    exact ⟨hosc, fun hc' => absurd (hc.symm.trans hc') (by decide), fun _ => ⟨hlive, hq⟩, hseed⟩

theorem MachineInv.command {s : State} (h : MachineInv s) (hidle : s.remain = 0#32) (w : CommandWord) :
    ∃ t, command (execOf (exactWith G)) w s = .next t ∧ MachineInv t := by
  obtain ⟨i, t, _, hlive, ht, heff⟩ | ⟨_, _, ht⟩ | ⟨_, _, ht⟩ | ⟨_, _, ht⟩ := command_cases (exactWith G) w s
  · exact ⟨t, ht, heff.inv h hlive hidle⟩
  · exact ⟨_, ht, .afterReset s⟩
  · exact ⟨s, ht, h⟩
  · exact ⟨_, ht, h.withErr hidle _⟩

/-! ### The step -/

theorem coreStep_idle_nil {α : Type} {P : Params α} {run : Instr → State α → Result α} {s : State α}
    (hr : s.remain = 0#32) (hc : s.cmd = []) : coreStep P run s = .next s := by
  rw [coreStep, if_pos hr, hc]

/-- The two inputs are free: the invariant reads neither. -/
theorem MachineInv.withInputs {s : State} (h : MachineInv s) (words : List CommandWord) (levels : List Bool) :
    MachineInv { s with cmd := words, rst := levels } := h

theorem MachineInv.coreStep {s : State} (h : MachineInv s) :
    ∃ t, coreStep (exactWith G) (execOf (exactWith G)) s = .next t ∧ MachineInv t := by
  by_cases hidle : s.remain = 0#32
  · cases hc : s.cmd with
    | nil => exact ⟨s, coreStep_idle_nil hidle hc, h⟩
    | cons w rest =>
      rw [coreStep_idle_cons hidle hc]
      exact (h.withInputs rest s.rst).command hidle w
  · rw [coreStep_busy hidle, sampleStep_of_oscillator (h.oscillator (h.configured_of_busy hidle))]
    exact ⟨_, rfl, h.afterSample hidle⟩

/-- An asserted reset input is a reset, whatever the core is doing (R220). -/
theorem stepOf_reset {α : Type} {P : Params α} {s : State α} {levels : List Bool} (h : s.rst = true :: levels) :
    stepOf P s = .next (doReset P { s with rst := levels }) := by
  rw [stepOf, portStep, h]

/-- From a state the invariant allows every step answers a state it allows. -/
theorem MachineInv.stepOf {s : State} (h : MachineInv s) : ∃ t, stepOf (exactWith G) s = .next t ∧ MachineInv t := by
  by_cases hq : s.rst.head? = some true
  · obtain ⟨levels, hrst⟩ := List.head?_eq_some_iff.mp hq
    exact ⟨_, stepOf_reset hrst, .afterReset _⟩
  · rw [stepOf_quiet hq]
    exact (h.withInputs s.cmd s.rst.tail).coreStep

theorem MachineInv.step {s : State} (h : MachineInv s) : ∃ t, step s = .next t ∧ MachineInv t := by
  rw [step_eq]
  exact h.stepOf

/-- Settles O34: `State.reset` is what a reset leaves. -/
theorem invariantAtReset : Obligations.InvariantAtReset := MachineInv.afterReset (G := rngFn) State.reset

/-- Settles O35: the next state is the one of `MachineInv.step`. -/
theorem stepKeepsInvariant : Obligations.StepKeepsInvariant := by
  intro s t h ht
  obtain ⟨u, hu, hinv⟩ := h.step
  obtain rfl : u = t := Host.Outcome.next.inj (hu.symm.trans ht)
  exact hinv

theorem coreRun_succ_of_step {M : Host.Core} {s t : M.State} (h : M.step s = .next t) (n : Nat) :
    M.run (n + 1) s = M.run n t := by
  rw [Host.Core.run, h]

theorem run_succ_of_step {s t : State} (h : step s = .next t) (n : Nat) :
    Sys2Proof.core.run (n + 1) s = Sys2Proof.core.run n t :=
  coreRun_succ_of_step (M := Sys2Proof.core) h n

theorem MachineInv.run (n : Nat) {s : State} (h : MachineInv s) :
    ∃ t, Sys2Proof.core.run n s = .next t ∧ MachineInv t := by
  induction n generalizing s with
  | zero => exact ⟨s, rfl, h⟩
  | succ n ih =>
    obtain ⟨u, hu, hinv⟩ := h.step
    rw [run_succ_of_step hu]
    exact ih hinv

/-- Settles O36: one step by `MachineInv.step`, and a run from reset by induction on its length. -/
theorem invariantStatesNeverStop : Obligations.InvariantStatesNeverStop := by
  refine ⟨fun s h => ?_, fun n words levels => (invariantAtReset.withInputs words levels).run n⟩
  obtain ⟨t, ht, -⟩ := h.step
  exact ⟨t, ht⟩

end Sys2Proof.Machine
end

section
/-! The step at the ports (spec/20_memory.md), FILL's command step (R180), and the parameters of the model (R7). -/

namespace Sys2Proof.Machine

variable {α : Type} {P : Params α}

/-! ### The next word -/

theorem command_of_decode {run : Instr → State α → Result α} {w : CommandWord} {i : Instr} (h : decode w = .ok i)
    (s : State α) : command run w s = run i s := by
  rw [command, h]

/-- An idle core whose reset input is quiet performs the first word's command. -/
theorem step_idle_cons {s : State} {w : CommandWord} {rest : List CommandWord} {i : Instr}
    (hq : s.rst.head? ≠ some true) (hr : s.remain = 0#32) (hc : s.cmd = w :: rest) (hd : decode w = .ok i) :
    step s = exec i { s with rst := s.rst.tail, cmd := rest } := by
  rw [step_eq, stepOf_idle_cons hq hr hc, command_of_decode hd, exec_eq]

/-- Settles O8: `step_idle_cons`, with no level listed and with a quiet one. -/
theorem stepRunsTheDecodedCommand : Obligations.StepRunsTheDecodedCommand := by
  intro s w rest i hr hc hd
  constructor
  · intro hrst
    rw [step_idle_cons (by simp [hrst]) hr hc hd, hrst, List.tail_nil, ← hrst]
  · intro levels hrst
    rw [step_idle_cons (by simp [hrst]) hr hc hd, hrst, List.tail_cons]

/-- The table's 64 bits of a command word are the word. -/
theorem tableWord_of_toNat (w : CommandWord) : tableWord 64 w.toNat = w := by
  rw [tableWord, Nat.mod_eq_of_lt w.isLt, BitVec.ofNat_toNat, BitVec.setWidth_eq]

/-- Settles O9: a core with the word presented is idle, its reset input is quiet, and the word decodes to the
command. -/
theorem fetchWordIsTheNextCommand : Obligations.FetchWordIsTheNextCommand := by
  intro s i
  rw [State.withFetchWord, tableWord_of_toNat,
    step_idle_cons (w := encode i) (rest := s.cmd) (by simp) rfl rfl (decode_encode i)]
  rfl

/-- Settles O10: the core waits, and the step uses up the level. -/
theorem idleCoreKeepsItsState : Obligations.IdleCoreKeepsItsState := by
  intro s hq hr hc
  rw [step_eq, stepOf_quiet hq]
  exact coreStep_idle_nil (s := { s with rst := s.rst.tail }) hr hc

/-- Settles O12: the reset input is sampled first, and RESET's word is the next one of an idle core. -/
theorem bothResetsResetEverything : Obligations.BothResetsResetEverything := by
  refine ⟨fun s levels hrst => ?input, fun s w rest hd hq hr hc => ?command⟩
  case input =>
    rw [step_eq, stepOf_reset hrst]
    rfl
  case command =>
    rw [step_idle_cons hq hr hc hd]
    exact exec_reset _

/-- Settles O30: the busy core makes no sample outside the range. -/
theorem outsideThePreconditionRefused : Obligations.OutsideThePreconditionRefused := by
  intro s hq hb hrange
  rw [step_eq, stepOf_quiet hq, coreStep_busy (by exact hb)]
  exact if_neg (Bool.eq_false_iff.mp hrange)

/-! ### FILL -/

theorem exec_fill {n : CountWord} {s : State} (he : s.err = .none) (hc : s.configured = true)
    (hq : s.qpolicy = .dither → s.seeded = true) : exec (.fill n) s = .next { s with remain := n } :=
  exec_of_effect he (.fill n s hc hq)

/-- Settles O22: the two tests select the constructor. -/
theorem fillCommandEffect : Obligations.FillCommandEffect :=
  fun n s he =>
    ⟨fun hc hq => exec_fill he hc hq, fun hc => exec_of_effect he (.fillConfigured n s hc),
      fun hc hq hs => exec_of_effect he (.fillSeed n s hc hq hs)⟩

/-- Settles O23: FILL 0 writes to `REMAIN` the 0 it holds. -/
theorem fillZeroChangesNothing : Obligations.FillZeroChangesNothing := by
  intro s he hr hc hq
  rw [exec_fill he hc hq, ← hr]

/-! ### The parameters -/

/-- INIT under an admitted configuration, for every parameters. -/
theorem execOf_init_admitted {m : Mode} {s : State α} (he : s.err = .none) (hc : s.configured = false)
    (ha : admitted s.freqRaw s.sampleRate) : execOf P (.init m) s = .next (createOscillator P m s) := by
  obtain ⟨hr, hf, hn⟩ := admitted_iff.mp ha
  exact execOf_of_effect he (.init m s hc hr hf hn)

/-- Settles O57: reset and INIT by their effects, the sample step by `stepOf_busy`, and the machine as the model for
`chip` by `exec_eq` and `step_eq`. -/
theorem modelTakesItsParameters : Obligations.ModelTakesItsParameters := by
  refine ⟨fun α P s => ⟨rfl, fun m he hc ha => execOf_init_admitted he hc ha, fun hq hb hrange => ?sample⟩, exec_eq,
    step_eq, resetTo_chip.symm⟩
  case sample =>
    exact ⟨_, stepOf_busy hq hb (sampleStep_inRange hrange), rfl, rfl, samplePathOf_prevOut_triangle,
      samplePathOf_rng_dither, rfl⟩

end Sys2Proof.Machine
end

section
/-! What a step leaves unchanged: the frame of a command, the lifetime of an OscillatorState (R22, R25, R37), the
output stream (R35, R52), and `STATUS` across a sample (R53). -/

namespace Sys2Proof.Machine

variable {α : Type} {P : Params α}

/-! ### The frame of a command -/

/-- No command touches what the host presents. -/
theorem CommandEffect.inputs {i : Instr} {s t : State α} (h : CommandEffect P i s t) :
    t.cmd = s.cmd ∧ t.rst = s.rst := by
  cases h <;> exact ⟨rfl, rfl⟩

/-- A command other than RESET leaves the output stream as it was. -/
theorem CommandEffect.out_eq {i : Instr} {s t : State α} (h : CommandEffect P i s t) (hi : i ≠ .reset) :
    t.out = s.out := by
  cases h with
  | reset => exact absurd rfl hi
  | _ => rfl

/-- FILL alone makes an idle core busy. -/
theorem CommandEffect.remain_eq {i : Instr} {s t : State α} (h : CommandEffect P i s t) (hi : ∀ n, i ≠ .fill n)
    (hidle : s.remain = 0#32) : t.remain = 0#32 := by
  cases h with
  | fill n => exact absurd rfl (hi n)
  | reset => rfl
  | _ => exact hidle

/-- After INIT no command but RESET changes the rate, the frequency or the step, or ends the lifetime. -/
theorem CommandEffect.configuration {i : Instr} {s t : State α} (h : CommandEffect P i s t) (hi : i ≠ .reset)
    (hc : s.configured = true) :
    t.configured = true ∧ t.sampleRate = s.sampleRate ∧ t.freqRaw = s.freqRaw ∧ t.phaseStep = s.phaseStep := by
  cases h with
  | reset => exact absurd rfl hi
  | ldrate _ _ hn | ldfreq _ _ hn | init _ _ hn => exact absurd (hn.symm.trans hc) (by decide)
  | _ => exact ⟨hc, rfl, rfl, rfl⟩

/-- Settles O28: the frames of the effects; a faulted core performs RESET or nothing. -/
theorem commandsProduceNoSamples : Obligations.CommandsProduceNoSamples := by
  intro i s t hidle h
  rw [exec_eq] at h
  by_cases he : s.err = .none
  · have heff := execOf_effect he h
    exact ⟨fun hi => heff.remain_eq hi hidle, heff.out_eq, heff.inputs⟩
  · rw [execOf_faulted chip i s he] at h
    obtain rfl := Host.Outcome.next.inj h
    split_ifs with hi
    · exact ⟨fun _ => rfl, fun hne => absurd hi hne, rfl, rfl⟩
    · exact ⟨fun _ => hidle, fun _ => rfl, rfl, rfl⟩

/-! ### What a step can do to the configuration and to the output stream -/

/-- A word is RESET's, is taken with an effect of another command, or changes `ERR` at most. -/
theorem command_reset_or_frame {w : CommandWord} {s t : State α} (h : command (execOf P) w s = .next t) :
    (decode w = .ok .reset ∧ t = doReset P s)
      ∨ (∃ i, i ≠ .reset ∧ CommandEffect P i s t)
      ∨ ∃ e, t = { s with err := e } := by
  obtain ⟨i, u, hd, _, hu, heff⟩ | ⟨hd, _, hu⟩ | ⟨_, _, hu⟩ | ⟨_, _, hu⟩ := command_cases P w s
  all_goals obtain rfl := Host.Outcome.next.inj (hu.symm.trans h)
  · by_cases hi : i = .reset
    · subst hi
      cases heff
      exact .inl ⟨hd, rfl⟩
    · exact .inr (.inl ⟨i, hi, heff⟩)
  · exact .inl ⟨hd, rfl⟩
  · exact .inr (.inr ⟨s.err, rfl⟩)
  · exact .inr (.inr ⟨_, rfl⟩)

/-- The two ways a step resets the core: the reset input, or the RESET command on an idle core. -/
def resetBy (s : State α) : Prop :=
  (∃ levels, s.rst = true :: levels)
    ∨ ∃ w rest, s.remain = 0#32 ∧ s.cmd = w :: rest ∧ decode w = .ok .reset

/-- A step is a reset; or a sample step; or, `REMAIN` being 0, it waits, performs a command other than RESET, or
changes `ERR` at most, the inputs apart. -/
theorem stepOf_reset_or_frame {s t : State α} (h : stepOf P s = .next t) :
    (t = doReset P t ∧ resetBy s)
      ∨ (∃ levels, s.remain ≠ 0#32 ∧ sampleStep P { s with rst := levels } = .next t)
      ∨ (s.remain = 0#32 ∧ ∃ words levels,
          (∃ i, i ≠ .reset ∧ CommandEffect P i { s with cmd := words, rst := levels } t)
            ∨ ∃ e, t = { s with cmd := words, rst := levels, err := e }) := by
  by_cases hq : s.rst.head? = some true
  · obtain ⟨levels, hrst⟩ := List.head?_eq_some_iff.mp hq
    rw [stepOf_reset hrst] at h
    obtain rfl := Host.Outcome.next.inj h
    exact .inl ⟨rfl, .inl ⟨levels, hrst⟩⟩
  · rw [stepOf_quiet hq] at h
    obtain ⟨hb, hsample⟩ | ⟨hidle, _, rfl⟩ | ⟨w, rest, hidle, hc, hcmd⟩ := coreStep_cases h
    · exact .inr (.inl ⟨_, hb, hsample⟩)
    · exact .inr (.inr ⟨hidle, s.cmd, s.rst.tail, .inr ⟨s.err, rfl⟩⟩)
    · obtain ⟨hd, rfl⟩ | heff | ⟨e, rfl⟩ := command_reset_or_frame hcmd
      · exact .inl ⟨rfl, .inr ⟨w, rest, hidle, hc, hd⟩⟩
      · exact .inr (.inr ⟨hidle, rest, s.rst.tail, .inl heff⟩)
      · exact .inr (.inr ⟨hidle, rest, s.rst.tail, .inr ⟨e, rfl⟩⟩)

/-- A step of a configured core that is no reset keeps the configuration. -/
theorem stepOf_configuration {s t : State α} (hc : s.configured = true) (h : stepOf P s = .next t) :
    (t = doReset P t ∧ resetBy s)
      ∨ (t.configured = true ∧ t.sampleRate = s.sampleRate ∧ t.freqRaw = s.freqRaw ∧ t.phaseStep = s.phaseStep) := by
  obtain hreset | ⟨levels, _, hsample⟩ | ⟨_, words, levels, ⟨i, hi, heff⟩ | ⟨e, rfl⟩⟩ := stepOf_reset_or_frame h
  · exact .inl hreset
  · obtain ⟨_, rfl⟩ := sampleStep_cases hsample
    exact .inr ⟨hc, rfl, rfl, rfl⟩
  · exact .inr (heff.configuration hi hc)
  · exact .inr ⟨hc, rfl, rfl, rfl⟩

/-- Settles O38: a step that is no reset keeps `CONFIGURED` set; one that is leaves it clear. -/
theorem configurationIsFixedForTheLifetime : Obligations.ConfigurationIsFixedForTheLifetime := by
  intro s t hc h
  rw [step_eq] at h
  obtain ⟨ht, hby⟩ | ⟨htc, hframe⟩ := stepOf_configuration hc h
  · refine ⟨fun htc => ?_, fun _ => ⟨ht, hby.imp_right ?_⟩⟩
    · rw [ht] at htc
      cases htc
    · rintro ⟨w, rest, -, hcmd, hd⟩
      exact ⟨w, rest, hcmd, hd⟩
  · exact ⟨fun _ => hframe, fun hn => absurd (htc.symm.trans hn) (by decide)⟩

/-- Settles O39: a sample step appends its code; no command other than RESET writes `OUT`. -/
theorem outputIsAppendOnly : Obligations.OutputIsAppendOnly := by
  intro s t h
  rw [step_eq] at h
  obtain hreset | ⟨levels, hb, hsample⟩ | ⟨hidle, words, levels, ⟨i, hi, heff⟩ | ⟨e, rfl⟩⟩ := stepOf_reset_or_frame h
  · exact .inr (.inr hreset)
  · obtain ⟨_, rfl⟩ := sampleStep_cases hsample
    exact .inl ⟨_, hb, rfl⟩
  · exact .inr (.inl ⟨hidle, heff.out_eq hi⟩)
  · exact .inr (.inl ⟨hidle, rfl⟩)

/-! ### `STATUS` across a sample step -/

theorem bit_getLsbD (x : Bool) (i : Nat) : (bit x).getLsbD i = (decide (i = 0) && x) := by
  cases x <;> simp [bit, BitVec.getLsbD_one]

/-- The five fields below `BUSY` are six bits. -/
theorem status_busyBit (s : State α) : (status s).getLsbD 6 = busy s := by
  simp only [status, BitVec.getLsbD_append, bit_getLsbD]
  rfl

/-- Away from bit 6 the status word does not read `REMAIN`, nor anything a sample writes. -/
theorem status_afterSample_getLsbD (s : State α) (n : CountWord) {b : Nat} (hb : b ≠ 6) :
    (status { produceSample P s with remain := n }).getLsbD b = (status s).getLsbD b := by
  simp only [status, BitVec.getLsbD_append, bit_getLsbD]
  by_cases hlow : b < 6
  · interval_cases b <;> rfl
  · have hindex : decide (b - 2 - 1 - 1 - 1 - 1 = 0) = false := decide_eq_false (by omega)
    simp only [hindex, Bool.false_and]
    rfl

/-- A sample that leaves `BUSY` as it was leaves the status word as it was. -/
theorem status_afterSample {s : State α} {n : CountWord} (h : (n != 0#32) = busy s) :
    status { produceSample P s with remain := n } = status s := by
  have hbusy : busy { produceSample P s with remain := n } = busy s := h
  rw [status, status, hbusy]
  rfl

/-- Settles O15: bit 6 is `BUSY`, and `REMAIN - 1` is 0 exactly for the last sample. -/
theorem sampleStepChangesOnlyBusy : Obligations.SampleStepChangesOnlyBusy := by
  intro s t h
  obtain ⟨-, rfl⟩ := sampleStep_cases h
  refine ⟨fun b hb => status_afterSample_getLsbD s _ hb, fun hbusy hmore => ?more, fun hlast => ?last⟩
  case more =>
    have hnext : s.remain - 1#32 ≠ 0#32 := by bv_omega
    exact status_afterSample ((bne_iff_ne.mpr hnext).trans (bne_iff_ne.mpr hbusy).symm)
  case last =>
    rw [status_busyBit]
    simp [busy, hlast]

end Sys2Proof.Machine
end

section
/-! Samples made in a row: FILL as one big step and as sample steps (R182), call splitting (R183), and how long a busy
core stays busy (R51, R64). -/

namespace Sys2Proof.Machine

variable {α : Type} {P : Params α}

/-! ### `produceSamples` is the iterate of `produceSample` -/

theorem produceSamples_eq_iterate (n : Nat) (s : State α) : produceSamples P n s = (produceSample P)^[n] s := by
  induction n generalizing s with
  | zero => rfl
  | succ n ih => exact ih (produceSample P s)

theorem produceSamples_add (m n : Nat) (s : State α) :
    produceSamples P (m + n) s = produceSamples P n (produceSamples P m s) := by
  simp only [produceSamples_eq_iterate, Nat.add_comm m n, Function.iterate_add_apply]

theorem produceSamples_succ_eq (n : Nat) (s : State α) :
    produceSamples P (n + 1) s = produceSample P (produceSamples P n s) :=
  produceSamples_add n 1 s

/-- A change that one sample does not notice, none of `n` samples notices. -/
theorem produceSamples_update {f : State α → State α} (hf : ∀ s, produceSample P (f s) = f (produceSample P s))
    (n : Nat) (s : State α) : produceSamples P n (f s) = f (produceSamples P n s) := by
  simp only [produceSamples_eq_iterate]
  exact (Function.Commute.iterate_left hf n).eq s

/-- What one sample leaves unchanged, `n` samples leave unchanged. -/
theorem produceSamples_keeps {β : Type} (field : State α → β) (hfield : ∀ s, field (produceSample P s) = field s)
    (n : Nat) (s : State α) : field (produceSamples P n s) = field s := by
  induction n with
  | zero => rfl
  | succ n ih => rw [produceSamples_succ_eq, hfield, ih]

theorem produceSamples_out_length (n : Nat) (s : State α) :
    (produceSamples P n s).out.length = s.out.length + n := by
  induction n with
  | zero => rfl
  | succ n ih => rw [produceSamples_succ_eq, produceSample_out, List.length_append, ih]; rfl

theorem hasOscillator.produceSamples {G : SeedWord → SeedWord × Rat} {s : State} (h : hasOscillator s) (n : Nat) :
    hasOscillator (produceSamples (exactWith G) n s) := by
  induction n with
  | zero => exact h
  | succ n ih =>
    rw [produceSamples_succ_eq]
    exact ih.produceSample

/-! ### FILL as sample steps (R182) -/

theorem sub_one_sub_ofNat (n : CountWord) (k : Nat) :
    n - 1#32 - BitVec.ofNat 32 k = n - BitVec.ofNat 32 (k + 1) := by
  rw [BitVec.sub_sub, BitVec.add_comm, BitVec.ofNat_add]

theorem sub_ofNat_toNat_self (n : CountWord) : n - BitVec.ofNat 32 n.toNat = 0#32 := by
  rw [BitVec.ofNat_toNat, BitVec.setWidth_eq, BitVec.sub_self]

/-- Sample steps are samples made in a row, `REMAIN` counted down beside them. -/
theorem sampleSteps_of_oscillator (n : Nat) {s : State} (h : hasOscillator s) :
    sampleSteps chip n s
      = .next { produceSamples chip n s with remain := s.remain - BitVec.ofNat 32 n } := by
  induction n generalizing s with
  | zero => simp [sampleSteps, produceSamples]
  | succ n ih =>
    rw [sampleSteps, chip_eq_exactWith, sampleStep_of_oscillator h, ← chip_eq_exactWith]
    refine (ih (s := { produceSample chip s with remain := s.remain - 1#32 }) h.produceSample).trans ?_
    rw [produceSamples_update (f := fun t => { t with remain := s.remain - 1#32 }) (fun _ => rfl),
      sub_one_sub_ofNat]
    rfl

/-- Settles O31: after `count` sample steps `REMAIN` is `count - count`. -/
theorem bigFillEqualsSampleSteps : Obligations.BigFillEqualsSampleSteps := by
  intro s n hinv hc _ he hq
  refine ⟨_, exec_fill he hc hq, ?_⟩
  rw [sampleSteps_of_oscillator n.toNat (s := { s with remain := n }) (hinv.oscillator hc),
    produceSamples_update (f := fun t => { t with remain := n }) (fun _ => rfl), sub_ofNat_toNat_self]
  rfl

/-! ### Runs of a busy core -/

theorem coreRun_add_of_run {M : Host.Core} {m : Nat} {s t : M.State} (h : M.run m s = .next t) (n : Nat) :
    M.run (m + n) s = M.run n t := by
  induction m generalizing s with
  | zero =>
    obtain rfl := Host.Outcome.next.inj h
    rw [Nat.zero_add]
  | succ m ih =>
    rw [Host.Core.run] at h
    rw [Nat.succ_add, Host.Core.run]
    cases hstep : M.step s with
    | next u => rw [hstep] at h; exact ih h
    | fault r => rw [hstep] at h; cases h
    | refused r => rw [hstep] at h; cases h

theorem head?_ne_true_of_quiet {levels : List Bool} (h : ∀ b ∈ levels, b = false) : levels.head? ≠ some true := by
  intro htrue
  cases h true (List.mem_of_head? htrue)

/-- While samples are owed and the reset input is quiet, each step makes one sample and uses up one level. -/
theorem run_busy {n : Nat} {s : State} (h : hasOscillator s) (hquiet : ∀ b ∈ s.rst, b = false)
    (hn : n ≤ s.remain.toNat) :
    Sys2Proof.core.run n s
      = .next { produceSamples chip n s with
          remain := s.remain - BitVec.ofNat 32 n, rst := s.rst.drop n } := by
  induction n generalizing s with
  | zero => simp [Host.Core.run, produceSamples]
  | succ n ih =>
    have hb : s.remain ≠ 0#32 := by
      intro h0
      rw [h0] at hn
      exact absurd hn (Nat.not_succ_le_zero n)
    have hstep : step s
        = .next { produceSample chip s with remain := s.remain - 1#32, rst := s.rst.tail } := by
      rw [step_eq]
      exact stepOf_busy (head?_ne_true_of_quiet hquiet) hb (sampleStep_of_oscillator h)
    have hcount := remain_sub_one_toNat hb
    rw [run_succ_of_step hstep]
    refine (ih (s := { produceSample chip s with remain := s.remain - 1#32, rst := s.rst.tail })
      h.produceSample (fun b hmem => hquiet b (List.mem_of_mem_tail hmem)) (by dsimp only; omega)).trans ?_
    rw [produceSamples_update (f := fun t => { t with remain := s.remain - 1#32, rst := s.rst.tail }) (fun _ => rfl),
      sub_one_sub_ofNat, List.drop_tail]
    rfl

/-- Settles O11: after `n` steps `REMAIN - n` samples are owed. -/
theorem busyCoreBecomesIdle : Obligations.BusyCoreBecomesIdle := by
  intro s hinv hquiet
  by_cases hb : s.remain = 0#32
  · refine ⟨s, by rw [hb]; rfl, hb, rfl, by rw [hb]; rfl, fun n hn => ?_⟩
    rw [hb] at hn
    exact absurd hn (Nat.not_lt_zero n)
  · have hosc := hinv.oscillator (hinv.configured_of_busy hb)
    refine ⟨_, run_busy hosc hquiet le_rfl, sub_ofNat_toNat_self s.remain,
      produceSamples_keeps State.cmd (fun _ => rfl) _ s, produceSamples_out_length _ s, fun n hn => ?_⟩
    refine ⟨_, run_busy hosc hquiet hn.le, ?_⟩
    have := s.remain.isLt
    dsimp only
    bv_omega

/-! ### Call splitting (R183) -/

/-- A core that a FILL makes busy: configured, unfaulted, and seeded if the policy is Dither (R180). -/
structure ReadyToFill (s : State) : Prop where
  oscillator : hasOscillator s
  configured : s.configured = true
  live : s.err = .none
  seeded : s.qpolicy = .dither → s.seeded = true

theorem ReadyToFill.produceSamples {s : State} (h : ReadyToFill s) (n : Nat) :
    ReadyToFill (produceSamples chip n s) where
  oscillator := h.oscillator.produceSamples n
  configured := (produceSamples_keeps State.configured (fun _ => rfl) n s).trans h.configured
  live := (produceSamples_keeps State.err (fun _ => rfl) n s).trans h.live
  seeded := by
    rw [produceSamples_keeps State.qpolicy (fun _ => rfl) n s, produceSamples_keeps State.seeded (fun _ => rfl) n s]
    exact h.seeded

theorem ReadyToFill.withPorts {s : State} (h : ReadyToFill s) (n : CountWord) (words : List CommandWord)
    (levels : List Bool) : ReadyToFill { s with remain := n, cmd := words, rst := levels } := by
  obtain ⟨hosc, hc, he, hq⟩ := h
  exact ⟨hosc, hc, he, hq⟩

/-- A FILL presented to a ready idle core, its command step and its sample steps together. -/
theorem run_fill {s : State} (h : ReadyToFill s) (n : CountWord) (rest : List CommandWord) :
    Sys2Proof.core.run (n.toNat + 1) { s with remain := 0#32, cmd := encode (.fill n) :: rest, rst := [] }
      = .next { produceSamples chip n.toNat s with remain := 0#32, cmd := rest, rst := [] } := by
  have hstep : step { s with remain := 0#32, cmd := encode (.fill n) :: rest, rst := [] }
      = .next { s with remain := n, cmd := rest, rst := [] } := by
    rw [step_idle_cons (w := encode (.fill n)) (rest := rest) (by simp) rfl rfl (decode_encode _)]
    exact exec_fill h.live h.configured h.seeded
  rw [run_succ_of_step hstep]
  refine (run_busy (s := { s with remain := n, cmd := rest, rst := [] }) (h.withPorts n rest []).oscillator (by simp)
    le_rfl).trans ?_
  rw [produceSamples_update (f := fun t => { t with remain := n, cmd := rest, rst := [] }) (fun _ => rfl),
    sub_ofNat_toNat_self, List.drop_nil]

/-- Settles O32: both runs end with `a + b` samples made in a row and no word left. -/
theorem callSplitting : Obligations.CallSplitting := by
  intro s a b hinv hc he hr hrst hq hsum
  have hready : ReadyToFill s := ⟨hinv.oscillator hc, hc, he, hq⟩
  have hports (words : List CommandWord) :
      { s with cmd := words } = { s with remain := 0#32, cmd := words, rst := [] } := by rw [← hr, ← hrst]
  have htotal : (a + b).toNat = a.toNat + b.toNat := by bv_omega
  refine ⟨{ produceSamples chip (a.toNat + b.toNat) s with remain := 0#32, cmd := [], rst := [] }, ?split, ?whole⟩
  case split =>
    rw [hports, show a.toNat + b.toNat + 2 = (a.toNat + 1) + (b.toNat + 1) by omega,
      coreRun_add_of_run (M := Sys2Proof.core) (run_fill hready a [encode (.fill b)]), produceSamples_add]
    exact run_fill (hready.produceSamples a.toNat) b []
  case whole =>
    rw [hports, ← htotal]
    exact run_fill hready (a + b) []

end Sys2Proof.Machine
end

section
/-! The phase accumulator: one wrap over the reals (R123, R124), the phase after many advances (R125) and after many
samples (R185), and the range of phase and step (R36). -/

namespace Sys2Proof.Machine

/-! ### Over the real numbers -/

theorem advance_numReal (phase step : ℝ) :
    advance numReal phase step = if 2 * Real.pi ≤ phase + step then phase + step - 2 * Real.pi else phase + step := by
  simp [advance, numReal]

theorem advance_numReal_mem {phase step : ℝ} (h0 : 0 ≤ phase) (h1 : phase < 2 * Real.pi) (h2 : 0 < step)
    (h3 : step < 2 * Real.pi) : 0 ≤ advance numReal phase step ∧ advance numReal phase step < 2 * Real.pi := by
  rw [advance_numReal]
  split_ifs with hwrap
  · constructor <;> linarith
  · constructor <;> linarith

/-- An advance takes away no turn or one. -/
theorem advance_numReal_congr (phase step : ℝ) :
    ∃ k : ℤ, advance numReal phase step = phase + step - k * (2 * Real.pi) := by
  rw [advance_numReal]
  split_ifs with hwrap
  · exact ⟨1, by push_cast; ring⟩
  · exact ⟨0, by push_cast; ring⟩

/-- The loop of R123 stops at once below `2π`. -/
theorem wrapLoop_numReal_of_lt {p : ℝ} (h : p < 2 * Real.pi) (fuel : Nat) : wrapLoop numReal fuel p = p := by
  cases fuel with
  | zero => rfl
  | succ fuel => simp [wrapLoop, numReal, h]

/-- The loop's first turn is the test of `advance`, and its second finds a value below `2π`. -/
theorem wrapLoop_numReal_eq_advance {phase step : ℝ} (h0 : 0 ≤ phase) (h1 : phase < 2 * Real.pi) (h2 : 0 < step)
    (h3 : step < 2 * Real.pi) (fuel : Nat) :
    wrapLoop numReal (fuel + 1) (phase + step) = advance numReal phase step := by
  obtain ⟨-, hlt⟩ := advance_numReal_mem h0 h1 h2 h3
  have hloop : wrapLoop numReal (fuel + 1) (phase + step) = wrapLoop numReal fuel (advance numReal phase step) := by
    rw [advance_numReal]
    split_ifs with hwrap
    · simp [wrapLoop, numReal, hwrap]
    · rw [wrapLoop_numReal_of_lt (not_le.mp hwrap), wrapLoop_numReal_of_lt (not_le.mp hwrap)]
  rw [hloop, wrapLoop_numReal_of_lt hlt]

/-- Settles O41: the formula of `advance`, its range, and the loop as one turn of it. -/
theorem advanceWraps : Obligations.AdvanceWraps := by
  intro phase step h0 h1 h2 h3
  obtain ⟨hlo, hhi⟩ := advance_numReal_mem h0 h1 h2 h3
  exact ⟨fun hbelow => (advance_numReal phase step).trans (if_neg hbelow.not_ge),
    fun hwrap => (advance_numReal phase step).trans (if_pos hwrap), hlo, hhi,
    wrapLoop_numReal_eq_advance h0 h1 h2 h3⟩

/-- Settles O42: each advance adds the step up to whole turns and stays in range. -/
theorem phaseWrapProperty : Obligations.PhaseWrapProperty := by
  intro phase step n h0 h1 h2 h3
  induction n generalizing phase with
  | zero => exact ⟨⟨0, by simp [advanceTimes]⟩, h0, h1⟩
  | succ n ih =>
    obtain ⟨hlo, hhi⟩ := advance_numReal_mem h0 h1 h2 h3
    obtain ⟨⟨k, hk⟩, hrange⟩ := ih (advance numReal phase step) hlo hhi
    obtain ⟨j, hj⟩ := advance_numReal_congr phase step
    refine ⟨⟨k + j, ?_⟩, hrange⟩
    rw [advanceTimes, hk, hj]
    push_cast
    ring

/-! ### In turns -/

theorem advance_numTurns (τ δ : Rat) :
    advance numTurns τ δ = if 1 ≤ τ + δ then τ + δ - 1 else τ + δ := by
  simp [advance, numTurns]

theorem advance_turns_eq_fract {τ δ : Rat} (h0 : 0 ≤ τ) (h1 : τ < 1) (h2 : 0 < δ) (h3 : δ < 1) :
    advance numTurns τ δ = Int.fract (τ + δ) := by
  obtain ⟨hlo, hhi⟩ := advance_turns_mem h0 h1 h2 h3
  have hcongr : ∃ z : ℤ, (τ + δ) - advance numTurns τ δ = z := by
    rw [advance_numTurns]
    split_ifs with hwrap
    · exact ⟨1, by push_cast; ring⟩
    · exact ⟨0, by push_cast; ring⟩
  exact (Int.fract_eq_iff.mpr ⟨hlo, hhi, hcongr⟩).symm

theorem fract_fract_add (x y : Rat) : Int.fract (Int.fract x + y) = Int.fract (x + y) :=
  Int.fract_eq_fract.mpr ⟨-⌊x⌋, by rw [Int.fract]; push_cast; ring⟩

/-- Settles O33: one advance more is one step more under the fractional part. -/
theorem phaseAfterSamples : Obligations.PhaseAfterSamples := by
  intro s τ n hinv hc h0 h1 hphase
  have hosc := hinv.oscillator hc
  have ⟨hadm, hcomputed, _⟩ := hosc
  obtain ⟨hδ0, hδ1⟩ := stepInTurns_mem hadm
  rw [div_div]
  generalize hδ : (s.freqRaw.toNat : Rat) / (65536 * s.sampleRate.toNat) = δ at hδ0 hδ1
  have hstep : s.phaseStep = numOfPi (2 * δ) := by rw [hcomputed, phaseStepOf_exact hadm.1.ne', hδ]
  induction n with
  | zero => rw [Nat.cast_zero, zero_mul, add_zero, Int.fract_eq_self.mpr ⟨h0, h1⟩]; exact hphase
  | succ n ih =>
    have hkeep : (produceSamples chip n s).phaseStep = numOfPi (2 * δ) :=
      (produceSamples_keeps State.phaseStep (fun _ => rfl) n s).trans hstep
    calc (produceSamples chip (n + 1) s).phase
        = advance numExact (produceSamples chip n s).phase (produceSamples chip n s).phaseStep := by
          rw [produceSamples_succ_eq]; rfl
      _ = numOfPi (2 * Int.fract (Int.fract (τ + n * δ) + δ)) := by
          rw [ih, hkeep, advance_exact,
            advance_turns_eq_fract (Int.fract_nonneg _) (Int.fract_lt_one _) hδ0 (hδ1.trans (by norm_num))]
      _ = numOfPi (2 * Int.fract (τ + (n + 1 : ℕ) * δ)) := by
          rw [fract_fract_add]
          congr 3
          push_cast
          ring

/-! ### The machine's registers as real numbers -/

theorem hasOscillator.toReal_phase_mem {s : State} (h : hasOscillator s) :
    0 ≤ toReal s.phase ∧ toReal s.phase < 2 * Real.pi := by
  obtain ⟨τ, -, ⟨h0, h1⟩, -, hphase, -⟩ := h.turns
  have h0' : (0 : ℝ) ≤ τ := by exact_mod_cast h0
  have h1' : (τ : ℝ) < 1 := by exact_mod_cast h1
  rw [hphase, toReal_numOfPi, Rat.cast_mul, Rat.cast_ofNat]
  constructor
  · positivity
  · nlinarith [Real.pi_pos]

/-- Settles O37: the phase from its turns form, the step from R121. -/
theorem phaseAndStepStayInRange : Obligations.PhaseAndStepStayInRange := by
  intro s hinv hc
  have hosc := hinv.oscillator hc
  obtain ⟨hlo, hhi⟩ := hosc.toReal_phase_mem
  obtain ⟨hadm, hcomputed, -⟩ := hosc
  rw [hcomputed]
  exact ⟨hlo, hhi, toReal_phaseStepOf_pos hadm, toReal_phaseStepOf_lt_pi hadm, toReal_phaseStepOf _ _⟩

end Sys2Proof.Machine
end

section
/-! The corrector's windows (R133, R135, R136), and what the Square and the Saw make of them: their corners (R142, R143)
and their ranges (R147), over the reals. -/

namespace Sys2Proof.Machine

/-! ### The kernels, window by window -/

/-- Settles O45: on each window the wide kernel is the narrow one halved. -/
theorem wideKernelIsHalfTheNarrow : Obligations.WideKernelIsHalfTheNarrow := by
  intro t dt
  rw [polyblep, polyblep, polyblepWide_numReal, polyblepNarrow_numReal]
  split_ifs with hfirst hsecond
  · rfl
  · rfl
  · rw [zero_div]

theorem polyblepNarrow_of_first {t dt : ℝ} (ht0 : 0 ≤ t) (ht1 : t < dt) :
    polyblepNarrow numReal t dt = -(1 - t / dt) ^ 2 := by
  rw [polyblepNarrow_numReal, if_pos ⟨ht0, ht1⟩]

/-- The windows do not meet, the step being below half a turn. -/
theorem polyblepNarrow_of_second {t dt : ℝ} (h1 : dt < 1 / 2) (ht : 1 - dt < t) :
    polyblepNarrow numReal t dt = ((t - 1) / dt + 1) ^ 2 := by
  rw [polyblepNarrow_numReal, if_neg (fun h => by linarith [h.2]), if_pos ht]

theorem polyblepNarrow_of_between {t dt : ℝ} (ht0 : dt ≤ t) (ht1 : t ≤ 1 - dt) : polyblepNarrow numReal t dt = 0 := by
  rw [polyblepNarrow_numReal, if_neg (fun h => by linarith [h.2]), if_neg ht1.not_gt]

theorem polyblep_of_between (k : Kernel) {t dt : ℝ} (ht0 : dt ≤ t) (ht1 : t ≤ 1 - dt) :
    polyblep numReal k t dt = 0 := by
  have hnarrow : polyblep numReal .narrow t dt = 0 := polyblepNarrow_of_between ht0 ht1
  cases k with
  | narrow => exact hnarrow
  | wide => rw [wideKernelIsHalfTheNarrow, hnarrow, zero_div]

theorem polyblep_half_turn (k : Kernel) {dt : ℝ} (h1 : dt < 1 / 2) : polyblep numReal k (1 / 2) dt = 0 :=
  polyblep_of_between k h1.le (by linarith)

theorem polyblepNarrow_zero {dt : ℝ} (h0 : 0 < dt) : polyblepNarrow numReal 0 dt = -1 := by
  rw [polyblepNarrow_of_first le_rfl h0]
  norm_num

theorem polyblep_narrow_zero {dt : ℝ} (h0 : 0 < dt) : polyblep numReal .narrow 0 dt = -1 := polyblepNarrow_zero h0

theorem polyblep_wide_zero {dt : ℝ} (h0 : 0 < dt) : polyblep numReal .wide 0 dt = -1 / 2 := by
  rw [wideKernelIsHalfTheNarrow, polyblep_narrow_zero h0]

/-- On the second window the base of the square is in `(0, 1)`. -/
theorem secondWindow_base_mem {t dt : ℝ} (h0 : 0 < dt) (ht0 : 1 - dt < t) (ht1 : t < 1) :
    0 < (t - 1) / dt + 1 ∧ (t - 1) / dt + 1 < 1 := by
  have hlo : -1 < (t - 1) / dt := by rw [lt_div_iff₀ h0]; linarith
  have hhi : (t - 1) / dt < 0 := div_neg_of_neg_of_pos (by linarith) h0
  constructor <;> linarith

theorem polyblepNarrow_first_mem {t dt : ℝ} (h0 : 0 < dt) (ht0 : 0 ≤ t) (ht1 : t < dt) :
    -1 ≤ polyblepNarrow numReal t dt ∧ polyblepNarrow numReal t dt < 0 := by
  have hx0 : 0 ≤ t / dt := div_nonneg ht0 h0.le
  have hx1 : t / dt < 1 := (div_lt_one h0).mpr ht1
  rw [polyblepNarrow_of_first ht0 ht1]
  constructor <;> nlinarith

theorem polyblepNarrow_first_lt {t u dt : ℝ} (h0 : 0 < dt) (ht0 : 0 ≤ t) (htu : t < u) (hu : u < dt) :
    polyblepNarrow numReal t dt < polyblepNarrow numReal u dt := by
  have hx : t / dt < u / dt := div_lt_div_of_pos_right htu h0
  have hu1 : u / dt < 1 := (div_lt_one h0).mpr hu
  rw [polyblepNarrow_of_first ht0 (htu.trans hu), polyblepNarrow_of_first (ht0.trans htu.le) hu, neg_lt_neg_iff]
  exact pow_lt_pow_left₀ (by linarith) (by linarith) two_ne_zero

section
variable {t dt : ℝ} (h0 : 0 < dt) (h1 : dt < 1 / 2)
include h0 h1

theorem polyblepNarrow_second_mem (ht0 : 1 - dt < t) (ht1 : t < 1) :
    0 < polyblepNarrow numReal t dt ∧ polyblepNarrow numReal t dt < 1 := by
  obtain ⟨hx0, hx1⟩ := secondWindow_base_mem h0 ht0 ht1
  rw [polyblepNarrow_of_second h1 ht0]
  exact ⟨pow_pos hx0 2, pow_lt_one₀ hx0.le hx1 two_ne_zero⟩

theorem polyblepNarrow_second_lt {u : ℝ} (ht0 : 1 - dt < t) (htu : t < u) (hu : u < 1) :
    polyblepNarrow numReal t dt < polyblepNarrow numReal u dt := by
  obtain ⟨hx0, -⟩ := secondWindow_base_mem h0 ht0 (htu.trans hu)
  have hx : (t - 1) / dt < (u - 1) / dt := div_lt_div_of_pos_right (by linarith) h0
  rw [polyblepNarrow_of_second h1 ht0, polyblepNarrow_of_second h1 (ht0.trans htu)]
  exact pow_lt_pow_left₀ (by linarith) hx0.le two_ne_zero

/-! ### Either kernel -/

theorem polyblep_first_mem (k : Kernel) (ht0 : 0 ≤ t) (ht1 : t < dt) :
    -1 ≤ polyblep numReal k t dt ∧ polyblep numReal k t dt < 0 := by
  have hnarrow : -1 ≤ polyblep numReal .narrow t dt ∧ polyblep numReal .narrow t dt < 0 :=
    polyblepNarrow_first_mem h0 ht0 ht1
  cases k with
  | narrow => exact hnarrow
  | wide => rw [wideKernelIsHalfTheNarrow]; constructor <;> linarith

theorem polyblep_second_mem (k : Kernel) (ht0 : 1 - dt < t) (ht1 : t < 1) :
    0 < polyblep numReal k t dt ∧ polyblep numReal k t dt < 1 := by
  have hnarrow : 0 < polyblep numReal .narrow t dt ∧ polyblep numReal .narrow t dt < 1 :=
    polyblepNarrow_second_mem h0 h1 ht0 ht1
  cases k with
  | narrow => exact hnarrow
  | wide => rw [wideKernelIsHalfTheNarrow]; constructor <;> linarith

/-- In the first half turn only the first window can be met. -/
theorem polyblep_firstHalf_mem (k : Kernel) (ht0 : 0 ≤ t) (ht1 : t < 1 / 2) :
    -1 ≤ polyblep numReal k t dt ∧ polyblep numReal k t dt ≤ 0 := by
  rcases lt_or_ge t dt with hfirst | hafter
  · obtain ⟨hlo, hhi⟩ := polyblep_first_mem h0 h1 k ht0 hfirst
    exact ⟨hlo, hhi.le⟩
  · rw [polyblep_of_between k hafter (by linarith)]
    norm_num

/-- In the second half turn only the second window can be met. -/
theorem polyblep_secondHalf_mem (k : Kernel) (ht0 : 1 / 2 ≤ t) (ht1 : t < 1) :
    0 ≤ polyblep numReal k t dt ∧ polyblep numReal k t dt < 1 := by
  rcases lt_or_ge (1 - dt) t with hsecond | hbefore
  · obtain ⟨hlo, hhi⟩ := polyblep_second_mem h0 h1 k hsecond ht1
    exact ⟨hlo.le, hhi⟩
  · rw [polyblep_of_between k (by linarith) hbefore]
    norm_num

end

/-- Settles O44: neither window's test is met. -/
theorem correctorZeroOutsideTheWindows : Obligations.CorrectorZeroOutsideTheWindows :=
  fun k _ _ _ _ ht0 ht1 => polyblep_of_between k ht0 ht1

/-- Settles O46: each window's square, its base monotone in `t`. -/
theorem narrowKernelRange : Obligations.NarrowKernelRange := by
  intro t dt h0 h1
  refine ⟨polyblepNarrow_zero h0, fun ht0 ht1 => ?first, fun ht0 ht1 => ?second⟩
  case first =>
    obtain ⟨hlo, hhi⟩ := polyblepNarrow_first_mem h0 ht0 ht1
    exact ⟨hlo, hhi, fun u htu hu => polyblepNarrow_first_lt h0 ht0 htu hu⟩
  case second =>
    obtain ⟨hlo, hhi⟩ := polyblepNarrow_second_mem h0 h1 ht0 ht1
    exact ⟨hlo, hhi, fun u htu hu => polyblepNarrow_second_lt h0 h1 ht0 htu hu⟩

/-! ### The Square on each half of the turn -/

theorem turns_lt_half_iff {phase : ℝ} : phase / (2 * Real.pi) < 1 / 2 ↔ phase < Real.pi := by
  rw [div_lt_iff₀ Real.two_pi_pos]
  constructor <;> intro h <;> linarith

theorem stepTurns_mem {step : ℝ} (h0 : 0 < step) (h1 : step < Real.pi) :
    0 < step / (2 * Real.pi) ∧ step / (2 * Real.pi) < 1 / 2 :=
  ⟨div_pos h0 Real.two_pi_pos, turns_lt_half_iff.mpr h1⟩

theorem genSquare_eq (k : Kernel) (phase step : ℝ) :
    genSquare numReal k phase step
      = naiveSquare numReal phase + polyblep numReal k (phase / (2 * Real.pi)) (step / (2 * Real.pi))
          - polyblep numReal k (halfTurnOn numReal (phase / (2 * Real.pi))) (step / (2 * Real.pi)) := rfl

theorem genSquare_of_lt_pi (k : Kernel) {phase : ℝ} (step : ℝ) (h : phase < Real.pi) :
    genSquare numReal k phase step
      = 1 + polyblep numReal k (phase / (2 * Real.pi)) (step / (2 * Real.pi))
          - polyblep numReal k (phase / (2 * Real.pi) + 1 / 2) (step / (2 * Real.pi)) := by
  have ht := turns_lt_half_iff.mpr h
  rw [genSquare_eq, naiveSquare_numReal, if_pos h, halfTurnOn_numReal, if_neg (by linarith)]

theorem genSquare_of_pi_le (k : Kernel) {phase : ℝ} (step : ℝ) (h : Real.pi ≤ phase) :
    genSquare numReal k phase step
      = -1 + polyblep numReal k (phase / (2 * Real.pi)) (step / (2 * Real.pi))
          - polyblep numReal k (phase / (2 * Real.pi) - 1 / 2) (step / (2 * Real.pi)) := by
  have ht := not_lt.mp (mt turns_lt_half_iff.mp h.not_gt)
  have hback : phase / (2 * Real.pi) + 1 / 2 - 1 = phase / (2 * Real.pi) - 1 / 2 := by ring
  rw [genSquare_eq, naiveSquare_numReal, if_neg h.not_gt, halfTurnOn_numReal, if_pos (by linarith), hback]

/-! ### The corners -/

theorem pi_turns : Real.pi / (2 * Real.pi) = 1 / 2 := by
  rw [div_mul_cancel_right₀ Real.pi_ne_zero, one_div]

theorem genSaw_at_zero (k : Kernel) (step : ℝ) :
    genSaw numReal k 0 step = -1 - polyblep numReal k 0 (step / (2 * Real.pi)) := by
  rw [genSaw_numReal, zero_div, zero_div, zero_sub]

section
variable {step : ℝ} (h0 : 0 < step) (h1 : step < Real.pi)
include h0 h1

theorem genSquare_at_zero (k : Kernel) :
    genSquare numReal k 0 step = 1 + polyblep numReal k 0 (step / (2 * Real.pi)) := by
  obtain ⟨hd0, hd1⟩ := stepTurns_mem h0 h1
  rw [genSquare_of_lt_pi k step Real.pi_pos, zero_div, zero_add, polyblep_half_turn k hd1, sub_zero]

theorem genSquare_at_pi (k : Kernel) :
    genSquare numReal k Real.pi step = -1 - polyblep numReal k 0 (step / (2 * Real.pi)) := by
  obtain ⟨hd0, hd1⟩ := stepTurns_mem h0 h1
  rw [genSquare_of_pi_le k step le_rfl, pi_turns, polyblep_half_turn k hd1, add_zero, sub_self]

/-- Between the jumps both corrections are 0. -/
theorem genSquare_upper (k : Kernel) {phase : ℝ} (hlo : step ≤ phase) (hhi : phase ≤ Real.pi - step) :
    genSquare numReal k phase step = 1 := by
  obtain ⟨hd0, hd1⟩ := stepTurns_mem h0 h1
  have ht0 : step / (2 * Real.pi) ≤ phase / (2 * Real.pi) := div_le_div_of_nonneg_right hlo Real.two_pi_pos.le
  have ht1 : phase / (2 * Real.pi) + step / (2 * Real.pi) ≤ 1 / 2 := by
    rw [← add_div, div_le_iff₀ Real.two_pi_pos]
    linarith
  rw [genSquare_of_lt_pi k step (by linarith), polyblep_of_between k ht0 (by linarith),
    polyblep_of_between k (by linarith) (by linarith), add_zero, sub_zero]

theorem genSquare_lower (k : Kernel) {phase : ℝ} (hlo : Real.pi + step ≤ phase) (hhi : phase ≤ 2 * Real.pi - step) :
    genSquare numReal k phase step = -1 := by
  obtain ⟨hd0, hd1⟩ := stepTurns_mem h0 h1
  have ht0 : 1 / 2 ≤ phase / (2 * Real.pi) - step / (2 * Real.pi) := by
    rw [← sub_div, le_div_iff₀ Real.two_pi_pos]
    linarith
  have ht1 : phase / (2 * Real.pi) + step / (2 * Real.pi) ≤ 1 := by
    rw [← add_div, div_le_iff₀ Real.two_pi_pos]
    linarith
  rw [genSquare_of_pi_le k step (by linarith), polyblep_of_between k (by linarith) (by linarith),
    polyblep_of_between k (by linarith) (by linarith), add_zero, sub_zero]

theorem genSaw_ramp (k : Kernel) {phase : ℝ} (hlo : step ≤ phase) (hhi : phase ≤ 2 * Real.pi - step) :
    genSaw numReal k phase step = phase / Real.pi - 1 := by
  obtain ⟨hd0, hd1⟩ := stepTurns_mem h0 h1
  have ht0 : step / (2 * Real.pi) ≤ phase / (2 * Real.pi) := div_le_div_of_nonneg_right hlo Real.two_pi_pos.le
  have ht1 : phase / (2 * Real.pi) + step / (2 * Real.pi) ≤ 1 := by
    rw [← add_div, div_le_iff₀ Real.two_pi_pos]
    linarith
  rw [genSaw_numReal, polyblep_of_between k ht0 (by linarith), sub_zero]

end

/-- Settles O48: at a jump one correction is the kernel at 0 and the other 0; on the plateaus both are 0. -/
theorem squareAndSawCorners : Obligations.SquareAndSawCorners := by
  intro step h0 h1
  obtain ⟨hd0, hd1⟩ := stepTurns_mem h0 h1
  have hnarrow := polyblep_narrow_zero hd0
  have hwide := polyblep_wide_zero hd0
  refine ⟨?_, ?_, ?_, ?_, ?_, ?_, fun k phase => ⟨genSquare_upper h0 h1 k, genSquare_lower h0 h1 k, genSaw_ramp h0 h1 k⟩⟩
  · rw [genSquare_at_zero h0 h1, hnarrow]; norm_num
  · rw [genSquare_at_pi h0 h1, hnarrow]; norm_num
  · rw [genSquare_at_zero h0 h1, hwide]; norm_num
  · rw [genSquare_at_pi h0 h1, hwide]; norm_num
  · rw [genSaw_at_zero, hnarrow]; norm_num
  · rw [genSaw_at_zero, hwide]; norm_num

/-! ### The ranges -/

section
variable (k : Kernel) {phase step : ℝ} (hp0 : 0 ≤ phase) (hp1 : phase < 2 * Real.pi) (h0 : 0 < step)
  (h1 : step < Real.pi)
include hp0 hp1 h0 h1

/-- On each half turn both corrections pull the naive value towards 0, each by at most 1. -/
theorem genSquare_mem : -1 ≤ genSquare numReal k phase step ∧ genSquare numReal k phase step ≤ 1 := by
  obtain ⟨hd0, hd1⟩ := stepTurns_mem h0 h1
  obtain ⟨ht0, ht1⟩ := turns_numReal_range hp0 hp1
  rw [turns_numReal] at ht0 ht1
  rcases lt_or_ge phase Real.pi with hphase | hphase
  · have hhalf := turns_lt_half_iff.mpr hphase
    obtain ⟨hlo, hhi⟩ := polyblep_firstHalf_mem hd0 hd1 k ht0 hhalf
    obtain ⟨hlo', hhi'⟩ := polyblep_secondHalf_mem hd0 hd1 k (t := phase / (2 * Real.pi) + 1 / 2) (by linarith) (by linarith)
    rw [genSquare_of_lt_pi k step hphase]
    constructor <;> linarith
  · have hhalf := not_lt.mp (mt turns_lt_half_iff.mp hphase.not_gt)
    obtain ⟨hlo, hhi⟩ := polyblep_secondHalf_mem hd0 hd1 k hhalf ht1
    obtain ⟨hlo', hhi'⟩ := polyblep_firstHalf_mem hd0 hd1 k (t := phase / (2 * Real.pi) - 1 / 2) (by linarith) (by linarith)
    rw [genSquare_of_pi_le k step hphase]
    constructor <;> linarith

/-- The correction pulls the ramp towards 0 by at most 1, and at the ramp's end -1, at the jump, it is not 0. -/
theorem genSaw_mem : -1 < genSaw numReal k phase step ∧ genSaw numReal k phase step < 1 := by
  obtain ⟨hd0, hd1⟩ := stepTurns_mem h0 h1
  obtain ⟨ht0, ht1⟩ := turns_numReal_range hp0 hp1
  rw [turns_numReal] at ht0 ht1
  have hramp : phase / Real.pi = 2 * (phase / (2 * Real.pi)) := by
    field_simp
  rw [genSaw_numReal, hramp]
  generalize phase / (2 * Real.pi) = t at ht0 ht1
  generalize step / (2 * Real.pi) = dt at hd0 hd1
  rcases lt_or_ge t dt with hfirst | hafter
  · obtain ⟨hlo, hhi⟩ := polyblep_first_mem hd0 hd1 k ht0 hfirst
    constructor <;> linarith
  · rcases lt_or_ge (1 - dt) t with hsecond | hbefore
    · obtain ⟨hlo, hhi⟩ := polyblep_second_mem hd0 hd1 k hsecond ht1
      constructor <;> linarith
    · rw [polyblep_of_between k hafter hbefore]
      constructor <;> linarith

end

/-- Settles O49: the sine by the library, the Square and the Saw window by window. -/
theorem generatorRanges : Obligations.GeneratorRanges :=
  fun k phase _ hp0 hp1 h0 h1 =>
    ⟨⟨Real.neg_one_le_sin phase, Real.sin_le_one phase⟩, genSquare_mem k hp0 hp1 h0 h1, genSaw_mem k hp0 hp1 h0 h1⟩

end Sys2Proof.Machine
end

section
/-! The quantizer's range and its clamp (R163), the two codes of Dither (R165), and the zero state of `XS32` (R168). -/

namespace Sys2Proof.Machine

/-! ### The clamp -/

theorem sampleCode_mem (u : Int) : -32768 ≤ sampleCode u ∧ sampleCode u ≤ 32767 := by
  unfold sampleCode clamp
  split_ifs <;> omega

/-- On a scaled sample that rounds into the 65536 codes the clamp does not act. -/
theorem clamp_floor_of_mem {y : ℝ} (h0 : 0 ≤ y) (h1 : y < 65536) :
    clamp (-32768) 32767 (⌊y⌋ - 32768) = ⌊y⌋ - 32768 := by
  have hlo : 0 ≤ ⌊y⌋ := Int.floor_nonneg.mpr h0
  have hhi : ⌊y⌋ < 65536 := Int.floor_lt.mpr (by exact_mod_cast h1)
  exact clamp_of_mem (by omega) (by omega)

/-- Settles O53: the range is the clamp's; a sample in `[-1, 1]` scales into `[0, 65535]`. -/
theorem quantizerRange : Obligations.QuantizerRange := by
  refine ⟨fun α N f r => ⟨sampleCode_mem _, sampleCode_mem _⟩, fun f hlo hhi => ⟨?round, fun r h0 h1 => ?dither⟩⟩
  case round =>
    rw [quantizeRound_numReal]
    exact clamp_floor_of_mem (by linarith) (by linarith)
  case dither =>
    have h0' : (0 : ℝ) ≤ r := by exact_mod_cast h0
    have h1' : (r : ℝ) < 1 := by exact_mod_cast h1
    rw [quantizeDither_numReal]
    exact clamp_floor_of_mem (by linarith) (by linarith)

/-! ### Dither -/

/-- On a scaled sample that is an integer no draw reaches the next code. -/
theorem quantizeDither_numReal_of_int {f : ℝ} {r : Rat} (h0 : 0 ≤ r) (h1 : r < 1) {z : ℤ}
    (hz : (f + 1) * (65535 / 2) = (z : ℝ)) : quantizeDither numReal f r = clamp (-32768) 32767 (z - 32768) := by
  have h1' : ¬ (1 : ℝ) - 0 ≤ r := by
    rw [sub_zero, not_le]
    exact_mod_cast h1
  rw [quantizeDither_numReal_eq_ite f h0 h1, hz, Int.fract_intCast, Int.floor_intCast, if_neg h1', add_zero]

/-- Settles O54: the draw adds 0 or 1 to the floor. -/
theorem ditherTwoValues : Obligations.DitherTwoValues := by
  intro f r h0 h1
  refine ⟨?_, fun z hz => quantizeDither_numReal_of_int h0 h1 hz⟩
  rw [quantizeDither_numReal_eq_ite f h0 h1]
  split_ifs
  · exact .inr rfl
  · exact .inl (by rw [add_zero])

/-! ### The zero state -/

/-- A word equal to itself shifted left has no lowest set bit. -/
theorem eq_zero_of_eq_shiftLeft {n k : Nat} (hk : 0 < k) {x : BitVec n} (h : x = x <<< k) : x = 0#n := by
  have hbits (i : Nat) : x.getLsbD i = false := by
    induction i using Nat.strong_induction_on with
    | _ i ih =>
      rw [h, BitVec.getLsbD_shiftLeft]
      by_cases hi : i < k
      · simp [hi]
      · rw [ih (i - k) (by omega), Bool.and_false]
  exact BitVec.eq_of_getLsbD_eq fun i _ => by rw [hbits, BitVec.getLsbD_zero]

/-- A word equal to itself shifted right is a number equal to a proper quotient of it. -/
theorem eq_zero_of_eq_ushiftRight {n k : Nat} (hk : 0 < k) {x : BitVec n} (h : x = x >>> k) : x = 0#n := by
  have hdiv : x.toNat = x.toNat / 2 ^ k := by
    conv_lhs => rw [h]
    rw [BitVec.toNat_ushiftRight, Nat.shiftRight_eq_div_pow]
  apply toNat_eq_zero_iff.mp
  by_contra hpos
  have := Nat.div_lt_self (Nat.pos_of_ne_zero hpos) (Nat.one_lt_two_pow hk.ne')
  omega

theorem xor_shiftLeft_eq_zero_iff (k : Nat) (hk : 0 < k) (x : SeedWord) : x ^^^ (x <<< k) = 0#32 ↔ x = 0#32 := by
  rw [BitVec.xor_eq_zero_iff]
  exact ⟨eq_zero_of_eq_shiftLeft hk, fun h => by rw [h, BitVec.zero_shiftLeft]⟩

theorem xor_ushiftRight_eq_zero_iff (k : Nat) (hk : 0 < k) (x : SeedWord) : x ^^^ (x >>> k) = 0#32 ↔ x = 0#32 := by
  rw [BitVec.xor_eq_zero_iff]
  exact ⟨eq_zero_of_eq_ushiftRight hk, fun h => by rw [h, BitVec.zero_ushiftRight]⟩

/-- Each of the three updates takes 0 alone to 0. -/
theorem xs32Next_eq_zero_iff (s : SeedWord) : xs32Next s = 0#32 ↔ s = 0#32 := by
  rw [xs32Next, xor_shiftLeft_eq_zero_iff 5 (by decide), xor_ushiftRight_eq_zero_iff 17 (by decide),
    xor_shiftLeft_eq_zero_iff 13 (by decide)]

theorem xs32Draw_zero : xs32Draw 0#32 = 0 := by
  rw [xs32Draw_eq]
  norm_num

theorem rngFn_zero : rngFn 0#32 = (0#32, 0) := by
  rw [rngFn, (xs32Next_eq_zero_iff 0#32).mpr rfl, xs32Draw_zero]

/-- Settles O56: under the seed 0 every draw is 0, which adds nothing to the scaled sample. -/
theorem zeroSeedTruncates : Obligations.ZeroSeedTruncates := by
  refine ⟨xs32Next_eq_zero_iff, by rw [rngFn_zero], fun f => ?_⟩
  rw [quantize, rngFn_zero, quantizeDither_numReal, Rat.cast_zero, add_zero]

end Sys2Proof.Machine
end

section
/-! The machine's arithmetic is that of the real numbers (R11, R13): one sample, the floor it takes, the bound on the
Triangle (R149), and every step of the machine. -/

namespace Sys2Proof.Machine

/-! ### The turns form over the reals -/

theorem polyblepNarrow_numTurns (t dt : Rat) :
    polyblepNarrow numTurns t dt
      = if 0 ≤ t ∧ t < dt then -(1 - t / dt) ^ 2 else if 1 - dt < t then ((t - 1) / dt + 1) ^ 2 else 0 := by
  simp only [polyblepNarrow, numTurns, Rat.mkRat_one, Int.cast_zero, Int.cast_one, Int.cast_ofNat, Bool.and_eq_true,
    decide_eq_true_eq]
  split_ifs with hfirst hsecond
  · ring
  · ring
  · rfl

theorem polyblepWide_numTurns (t dt : Rat) : polyblepWide numTurns t dt = polyblepNarrow numTurns t dt / 2 := by
  rw [polyblepNarrow_numTurns]
  simp only [polyblepWide, half_turns]
  simp only [numTurns, Rat.mkRat_one, Int.cast_zero, Int.cast_one, Bool.and_eq_true, decide_eq_true_eq]
  split_ifs with hfirst hsecond
  · ring
  · ring
  · rw [zero_div]

/-- The kernels take rationals to rationals, and the tests on them are those of the reals. -/
theorem polyblep_cast (k : Kernel) (t dt : Rat) : ((polyblep numTurns k t dt : Rat) : ℝ) = polyblep numReal k t dt := by
  have hnarrow : ((polyblepNarrow numTurns t dt : Rat) : ℝ) = polyblepNarrow numReal t dt := by
    rw [polyblepNarrow_numTurns, polyblepNarrow_numReal, apply_ite Rat.cast, apply_ite Rat.cast, Rat.cast_zero]
    norm_cast
  cases k with
  | narrow => exact hnarrow
  | wide =>
    rw [wideKernelIsHalfTheNarrow, polyblep, polyblep, polyblepWide_numTurns, Rat.cast_div, hnarrow, Rat.cast_ofNat]

theorem cast_ite_of_iff {p q : Prop} [Decidable p] [Decidable q] (h : p ↔ q) (a b : Rat) :
    ((if p then a else b : Rat) : ℝ) = if q then (a : ℝ) else (b : ℝ) := by
  rw [apply_ite Rat.cast]
  exact if_congr h rfl rfl

theorem halfTurnOn_cast (t : Rat) : ((halfTurnOn numTurns t : Rat) : ℝ) = halfTurnOn numReal t := by
  have hturns : halfTurnOn numTurns t = if 1 ≤ t + 1 / 2 then t + 1 / 2 - 1 else t + 1 / 2 := by
    simp only [halfTurnOn, half_turns]
    simp [numTurns, Rat.mkRat_one]
  have hwrap : 1 ≤ t + 1 / 2 ↔ 1 ≤ (t : ℝ) + 1 / 2 := by
    rw [← Rat.cast_le (K := ℝ)]
    push_cast
    rfl
  rw [hturns, halfTurnOn_numReal, cast_ite_of_iff hwrap]
  push_cast
  rfl

/-- `2π·τ` is `τ` turns. -/
theorem toReal_turns (τ : Rat) : toReal (numOfPi (2 * τ)) / (2 * Real.pi) = τ := by
  rw [toReal_numOfPi, Rat.cast_mul, Rat.cast_ofNat]
  field_simp

theorem naiveSquare_cast (τ : Rat) :
    ((naiveSquare numTurns τ : Rat) : ℝ) = naiveSquare numReal (toReal (numOfPi (2 * τ))) := by
  have hturns : naiveSquare numTurns τ = if τ < 1 / 2 then 1 else -1 := by
    simp [naiveSquare, numTurns, Rat.mkRat_eq_div]
  have hhalf : τ < 1 / 2 ↔ toReal (numOfPi (2 * τ)) < Real.pi := by
    rw [← turns_lt_half_iff, toReal_turns, ← Rat.cast_lt (K := ℝ)]
    push_cast
    rfl
  rw [hturns, naiveSquare_numReal, cast_ite_of_iff hhalf, Rat.cast_neg, Rat.cast_one]

theorem genSquare_cast (k : Kernel) (τ δ : Rat) :
    ((genSquare numTurns k τ δ : Rat) : ℝ)
      = genSquare numReal k (toReal (numOfPi (2 * τ))) (toReal (numOfPi (2 * δ))) := by
  have hturns : genSquare numTurns k τ δ
      = naiveSquare numTurns τ + polyblep numTurns k τ δ - polyblep numTurns k (halfTurnOn numTurns τ) δ := by
    simp only [genSquare, turns_turns]
    rfl
  rw [hturns, genSquare_eq, toReal_turns, toReal_turns, ← halfTurnOn_cast, ← polyblep_cast, ← polyblep_cast,
    ← naiveSquare_cast]
  push_cast
  rfl

theorem genSaw_cast (k : Kernel) (τ δ : Rat) :
    ((genSaw numTurns k τ δ : Rat) : ℝ)
      = genSaw numReal k (toReal (numOfPi (2 * τ))) (toReal (numOfPi (2 * δ))) := by
  have hturns : genSaw numTurns k τ δ = 2 * τ - 1 - polyblep numTurns k τ δ := by
    simp only [genSaw, turns_turns]
    simp only [numTurns, Rat.mkRat_eq_div]
    push_cast
    ring
  have hramp : toReal (numOfPi (2 * τ)) / Real.pi = 2 * τ := by
    rw [toReal_numOfPi, mul_div_cancel_right₀ _ Real.pi_ne_zero, Rat.cast_mul, Rat.cast_ofNat]
  rw [hturns, genSaw_numReal, toReal_turns, toReal_turns, hramp, ← polyblep_cast]
  push_cast
  rfl

/-! ### One sample -/

/-- The parameters over the real numbers with `G` for `RNG_FN`. -/
noncomputable abbrev realWith (G : SeedWord → SeedWord × Rat) : Params ℝ := { num := numReal, rng := G }

theorem toReal_genSquare (k : Kernel) (τ : Rat) {δ : Rat} (h : δ ≠ 0) :
    toReal (genSquare numExact k (numOfPi (2 * τ)) (numOfPi (2 * δ)))
      = genSquare numReal k (toReal (numOfPi (2 * τ))) (toReal (numOfPi (2 * δ))) := by
  rw [genSquare_exact k τ h, toReal_numOfRat, genSquare_cast]

/-- The value of the generator, in every mode. -/
theorem hasOscillator.toReal_generate {s : State} (h : hasOscillator s) :
    toReal (generate numExact s.mode s.kernel s.phase s.phaseStep s.prevOut)
      = generate numReal s.mode s.kernel (toReal s.phase) (toReal s.phaseStep) (toReal s.prevOut) := by
  obtain ⟨τ, δ, -, ⟨hδ0, -⟩, hphase, hstep⟩ := h.turns
  rw [hphase, hstep]
  cases s.mode with
  | sine => exact toReal_numSin _
  | square => exact toReal_genSquare s.kernel τ hδ0.ne'
  | saw =>
    rw [generate, generate, genSaw_exact s.kernel τ hδ0.ne', toReal_numOfRat, genSaw_cast]
  | triangle =>
    rw [generate, generate, genTriangle_numReal, ← toReal_genSquare s.kernel τ hδ0.ne']
    simp [genTriangle, numExact]

/-- A comparison of polynomials in π is that of the reals, so the advance wraps exactly where it does over them. -/
theorem hasOscillator.toReal_advance {s : State} (h : hasOscillator s) :
    toReal (advance numExact s.phase s.phaseStep) = advance numReal (toReal s.phase) (toReal s.phaseStep) := by
  obtain ⟨τ, δ, -, -, hphase, hstep⟩ := h.turns
  have hless : numLess (numAdd s.phase s.phaseStep) numTwoPi
      = decide (toReal s.phase + toReal s.phaseStep < 2 * Real.pi) := by
    rw [hphase, hstep, ← toReal_numAdd, ← toReal_numTwoPi]
    exact numLess_poly _ _
  have hadvance : advance numExact s.phase s.phaseStep
      = if 2 * Real.pi ≤ toReal s.phase + toReal s.phaseStep
        then numSub (numAdd s.phase s.phaseStep) numTwoPi else numAdd s.phase s.phaseStep := by
    simp [advance, numExact, hless]
  rw [hadvance, advance_numReal, apply_ite toReal, toReal_numSub, toReal_numAdd, toReal_numTwoPi]

/-- The floors of both policies are those of the reals wherever the machine computes them. -/
theorem quantize_exact {f : ExactNum}
    (hf : ∀ q, floorComputed (numExact.add (scaled numExact f) (numOfRat q)) = true)
    (G : SeedWord → SeedWord × Rat) (policy : QPolicy) (rng : SeedWord) :
    quantize numExact G policy f rng = quantize numReal G policy (toReal f) rng := by
  have hscaled : toReal (scaled numExact f) = scaled numReal (toReal f) := by
    simp [scaled, numExact, numReal]
  have hfloor (q : Rat) : numExact.floor (numExact.add (scaled numExact f) (numOfRat q))
      = numReal.floor (numReal.add (scaled numReal (toReal f)) (numReal.ofRat q)) := by
    refine (numFloor_exact (hf q)).trans ?_
    rw [← hscaled]
    simp [numExact, numReal]
  cases policy with
  | round => exact congrArg (fun u => (sampleCode u, rng)) (hfloor (mkRat 1 2))
  | dither => exact congrArg (fun u => (sampleCode u, (G rng).1)) (hfloor (G rng).2)

theorem prevOutAfter_map {α β : Type} (g : α → β) (m : Mode) (y prev : α) :
    g (prevOutAfter m y prev) = prevOutAfter m (g y) (g prev) := by
  cases m <;> rfl

/-- One sample of an OscillatorState, register by register. -/
theorem hasOscillator.samplePath_eq {s : State} (h : hasOscillator s) (G : SeedWord → SeedWord × Rat) :
    samplePath numReal G s.mode s.kernel s.qpolicy (toReal s.phase) (toReal s.phaseStep) (toReal s.prevOut) s.rng
      = { code := (samplePathOf (exactWith G) s).code
          phase := toReal (samplePathOf (exactWith G) s).phase
          prevOut := toReal (samplePathOf (exactWith G) s).prevOut
          rng := (samplePathOf (exactWith G) s).rng } := by
  simp only [samplePath, samplePathOf, h.toReal_advance, prevOutAfter_map toReal, h.toReal_generate,
    quantize_exact (floorComputed_sample h)]

/-- Settles O58: the invariant gives the OscillatorState. -/
theorem sampleIsRealArithmetic : Obligations.SampleIsRealArithmetic :=
  fun G _ hinv hc => (hinv.oscillator hc).samplePath_eq G

/-! ### Square and Saw: rational samples -/

theorem scaled_exact (q : Rat) : scaled numExact (numOfRat q) = numOfRat ((q + 1) * (65535 / 2)) := by
  simp only [scaled, numExact, numOfInt_eq, numAdd_rat, numMul_rat, Rat.mkRat_eq_div]
  norm_num

/-- The Square and the Saw are rational, so the quantizer takes the floor of a rational. -/
theorem floorArgument_rational {s : State} (h : hasOscillator s) (hm : s.mode = .square ∨ s.mode = .saw) :
    ∃ q, floorArgument s = numOfRat q := by
  obtain ⟨τ, δ, -, ⟨hδ0, -⟩, hphase, hstep⟩ := h.turns
  have hgen : ∃ q, generate numExact s.mode s.kernel s.phase s.phaseStep s.prevOut = numOfRat q := by
    rw [hphase, hstep]
    rcases hm with hm | hm <;> rw [hm]
    · exact ⟨_, genSquare_exact s.kernel τ hδ0.ne'⟩
    · exact ⟨_, genSaw_exact s.kernel τ hδ0.ne'⟩
  obtain ⟨q, hq⟩ := hgen
  have hadd (r : Rat) : numExact.add (scaled numExact (numOfRat q)) (numOfRat r)
      = numOfRat ((q + 1) * (65535 / 2) + r) := by
    rw [scaled_exact]
    exact numAdd_rat _ _
  rw [floorArgument, hq]
  cases s.qpolicy with
  | round => exact ⟨_, hadd (mkRat 1 2)⟩
  | dither => exact ⟨_, hadd (rngFn s.rng).2⟩

/-- Settles O59: a rational's floor is decided at once, and the sample is that of the reals in every mode. -/
theorem squareAndSawAreDecided : Obligations.SquareAndSawAreDecided := by
  intro s hinv hc hm
  have hosc := hinv.oscillator hc
  obtain ⟨q, hq⟩ := floorArgument_rational hosc hm
  refine ⟨by rw [hq, decidedFloor_rat]; rfl, ?_⟩
  exact (congrArg SampleResult.code (hosc.samplePath_eq rngFn)).symm

/-! ### The bound on the Triangle -/

/-- For a step in `[0, 1]` the Triangle is between the square value and the previous output. -/
theorem abs_genTriangle_le {k : Kernel} {phase step prev : ℝ} (h0 : 0 ≤ step) (h1 : step ≤ 1)
    (hsq : |genSquare numReal k phase step| ≤ 1) (hprev : |prev| ≤ 1) :
    |genTriangle numReal k phase step prev| ≤ 1 := by
  rw [genTriangle_numReal]
  calc |step * genSquare numReal k phase step + (1 - step) * prev|
      ≤ |step * genSquare numReal k phase step| + |(1 - step) * prev| := abs_add_le _ _
    _ = step * |genSquare numReal k phase step| + (1 - step) * |prev| := by
        rw [abs_mul, abs_mul, abs_of_nonneg h0, abs_of_nonneg (sub_nonneg.mpr h1)]
    _ ≤ step * 1 + (1 - step) * 1 :=
        add_le_add (mul_le_mul_of_nonneg_left hsq h0) (mul_le_mul_of_nonneg_left hprev (sub_nonneg.mpr h1))
    _ = 1 := by ring

/-- Settles O50: in Triangle mode `PREV_OUT` takes the Triangle's value, in every other it stays. -/
theorem triangleStaysBoundedForSmallSteps : Obligations.TriangleStaysBoundedForSmallSteps := by
  intro s t hinv hc hstep hprev ht
  obtain ⟨-, rfl⟩ := sampleStep_cases ht
  have hosc := hinv.oscillator hc
  obtain ⟨hlo, hhi, hpos, hpi, -⟩ := phaseAndStepStayInRange s hinv hc
  have hreal : prevOutAfter s.mode
      (generate numReal s.mode s.kernel (toReal s.phase) (toReal s.phaseStep) (toReal s.prevOut)) (toReal s.prevOut)
        = toReal (samplePathOf chip s).prevOut :=
    congrArg SampleResult.prevOut (hosc.samplePath_eq rngFn)
  rw [produceSample_prevOut, ← hreal, prevOutAfter_eq]
  split_ifs with hm
  · rw [hm]
    exact abs_genTriangle_le hpos.le hstep (abs_le.mpr (genSquare_mem s.kernel hlo hhi hpos hpi)) hprev
  · exact hprev

/-! ### Every step of the machine -/

variable {G : SeedWord → SeedWord × Rat}

theorem realState_reset : realState State.reset = State.resetTo 0 := by
  simp [realState, State.reset, State.resetTo]

theorem toReal_ofInt (i : Int) : toReal (numExact.ofInt i) = numReal.ofInt i := toReal_numOfInt i

theorem realState_doReset (s : State) : realState (doReset (exactWith G) s) = doReset (realWith G) (realState s) := by
  simp only [realState, doReset, State.resetTo, toReal_ofInt]

theorem realState_createOscillator (m : Mode) (s : State) :
    realState (createOscillator (exactWith G) m s) = createOscillator (realWith G) m (realState s) := by
  have hstep : toReal (phaseStepOf numExact s.freqRaw s.sampleRate) = phaseStepOf numReal s.freqRaw s.sampleRate :=
    (toReal_phaseStepOf _ _).trans (phaseStepOf_numReal _ _).symm
  simp only [realState, createOscillator, hstep, toReal_ofInt]

/-- A command has over the reals the effect it has on the machine: its tests read no real value. -/
theorem CommandEffect.real {i : Instr} {s t : State} (h : CommandEffect (exactWith G) i s t) :
    CommandEffect (realWith G) i (realState s) (realState t) := by
  cases h with
  | nop => exact .nop _
  | reset => rw [realState_doReset]; exact .reset _
  | ldrate r _ hc => exact .ldrate r (realState s) hc
  | ldrateError r _ hc => exact .ldrateError r (realState s) hc
  | ldfreq f _ hc => exact .ldfreq f (realState s) hc
  | ldfreqError f _ hc => exact .ldfreqError f (realState s) hc
  | init m _ hc hr hf hn => rw [realState_createOscillator]; exact .init m (realState s) hc hr hf hn
  | initConfigured m _ hc => exact .initConfigured m (realState s) hc
  | initRate m _ hc hr => exact .initRate m (realState s) hc hr
  | initFreq m _ hc hr hf => exact .initFreq m (realState s) hc hr hf
  | setmode m _ hc => exact .setmode m (realState s) hc
  | setmodeError m _ hc => exact .setmodeError m (realState s) hc
  | setkern k => exact .setkern k (realState s)
  | setq q => exact .setq q (realState s)
  | seed v => exact .seed v (realState s)
  | fill n _ hc hq => exact .fill n (realState s) hc hq
  | fillConfigured n _ hc => exact .fillConfigured n (realState s) hc
  | fillSeed n _ hc hq hs => exact .fillSeed n (realState s) hc hq hs

theorem command_real {w : CommandWord} {s t : State} (h : command (execOf (exactWith G)) w s = .next t) :
    command (execOf (realWith G)) w (realState s) = .next (realState t) := by
  obtain ⟨i, u, hd, hlive, hu, heff⟩ | ⟨hd, _, hu⟩ | ⟨hd, hfault, hu⟩ | ⟨hill, hlive, hu⟩ := command_cases (exactWith G) w s
  all_goals obtain rfl := Host.Outcome.next.inj (hu.symm.trans h)
  · rw [command_of_decode hd]
    exact execOf_of_effect hlive heff.real
  · rw [command_reset hd, realState_doReset]
  · exact command_ignored hfault hd
  · rw [command_illegal hill]
    exact unlessFaulted_live (s := realState s) hlive _

theorem realState_produceSample {s : State} (h : hasOscillator s) (n : CountWord) :
    realState { produceSample (exactWith G) s with remain := n }
      = { produceSample (realWith G) (realState s) with remain := n } := by
  have hpath : samplePathOf (realWith G) (realState s) = _ := h.samplePath_eq G
  simp only [produceSample, outWrite, hpath]
  rfl

theorem phaseInRange_numReal {phase step : ℝ} (h0 : 0 ≤ phase) (h1 : phase < 2 * Real.pi) (h2 : 0 < step)
    (h3 : step < Real.pi) : phaseInRange numReal phase step = true := by
  simp [phaseInRange, numReal, h0, h1, h2, h3]

theorem sampleStep_real {s t : State} (hinv : MachineInv s) (hb : s.remain ≠ 0#32)
    (h : sampleStep (exactWith G) s = .next t) : sampleStep (realWith G) (realState s) = .next (realState t) := by
  obtain ⟨-, rfl⟩ := sampleStep_cases h
  have hc := hinv.configured_of_busy hb
  obtain ⟨hlo, hhi, hpos, hpi, -⟩ := phaseAndStepStayInRange s hinv hc
  rw [realState_produceSample (hinv.oscillator hc)]
  exact sampleStep_inRange (s := realState s) (phaseInRange_numReal hlo hhi hpos hpi)

theorem coreStep_real {s t : State} (hinv : MachineInv s)
    (h : coreStep (exactWith G) (execOf (exactWith G)) s = .next t) :
    coreStep (realWith G) (execOf (realWith G)) (realState s) = .next (realState t) := by
  obtain ⟨hb, hsample⟩ | ⟨hidle, hc, rfl⟩ | ⟨w, rest, hidle, hc, hcmd⟩ := coreStep_cases h
  · exact (coreStep_busy (s := realState s) hb).trans (sampleStep_real hinv hb hsample)
  · exact coreStep_idle_nil (s := realState t) hidle hc
  · exact (coreStep_idle_cons (s := realState s) hidle hc).trans (command_real hcmd)

theorem stepOf_real {s t : State} (hinv : MachineInv s) (h : stepOf (exactWith G) s = .next t) :
    stepOf (realWith G) (realState s) = .next (realState t) := by
  by_cases hq : s.rst.head? = some true
  · obtain ⟨levels, hrst⟩ := List.head?_eq_some_iff.mp hq
    rw [stepOf_reset hrst] at h
    obtain rfl := Host.Outcome.next.inj h
    rw [realState_doReset]
    exact stepOf_reset (s := realState s) hrst
  · rw [stepOf_quiet hq] at h
    exact (stepOf_quiet (s := realState s) hq).trans (coreStep_real (hinv.withInputs s.cmd s.rst.tail) h)

/-- Settles O60: the step of the machine by `MachineInv.stepOf`, that of the real one by `stepOf_real`. -/
theorem stepIsTheRealMachine : Obligations.StepIsTheRealMachine := by
  refine ⟨realState_reset, fun G s hinv => ?_⟩
  obtain ⟨t, ht, hinv'⟩ := hinv.stepOf (G := G)
  exact ⟨t, ht, hinv', stepOf_real hinv ht⟩

end Sys2Proof.Machine
end
